-- ==== Sys2Proof/Word.lean ====
section
/-! DEFINITION. The two widths of the interface: R5 (`W`, `REQ_BITS`, `RSP_BITS`), R6, R7. Bit 0 is the least
significant bit. Every value of the datapath is unsigned. -/

namespace Sys2Proof

/-- A 64-bit operand or response (R5, R27, R29, R44). -/
abbrev Word := BitVec 64

/-- A 65-bit request word, `{op, x}` (R38). -/
abbrev ReqWord := BitVec 65

end Sys2Proof
end

