-- ==== Sys2Proof/Syntax.lean ====
section
/-! DEFINITION. The instructions of the opcode table (R46), the request as it stands on the wires (R38, R70),
and the lines of a requester's program (R48, R49). -/

namespace Sys2Proof

/-- The two operations of the block (R1, R41). -/
inductive Op where
  | isolate
  | position
deriving DecidableEq, Repr

/-- A decoded request: one constructor for each row of the opcode table (R46), with its 64-bit operand (R40). -/
inductive Instr where
  /-- `msb.iso x`: ISOLATE (R54). -/
  | msbIso (x : Word)
  /-- `msb.pos x`: POSITION (R61). -/
  | msbPos (x : Word)
deriving DecidableEq, Repr

/-- A request as a requester presents it, before it is known to be fully defined (R70, D25): `driven` has a 1 at
every bit position whose value is defined, and `bits` holds those values. What `bits` holds at an undriven position
means nothing and nothing reads it. -/
structure WireWord where
  bits : ReqWord
  driven : ReqWord
deriving DecidableEq, Repr

/-- The operand of a program line (R48): a literal in [0, 2^64 − 1], or `$k`, the response to the program's
`k`-th request (R49). -/
inductive Operand where
  | lit (x : Word)
  | ref (k : Nat)
deriving DecidableEq, Repr

/-- A request line of a program (R48). -/
structure Line where
  op : Op
  operand : Operand
deriving DecidableEq, Repr

/-- What a requester has to issue: a line of its program (R48), or a word that it presents as it stands (R38; a
core, a host or a test bench is a requester too, R12). -/
inductive Item where
  | line (l : Line)
  | wire (w : WireWord)
deriving DecidableEq, Repr

/-- Why a presented word is not a request. -/
inductive DecodeError where
  /-- Some bit of the word is undefined: refused, with no response value (R70, D25, I8). -/
  | undefinedBits
deriving DecidableEq, Repr

/-- Why the assembler refuses a source line (R48, R49, I11). -/
inductive AsmError where
  /-- The first word of the line is neither `msb.iso` nor `msb.pos` (R48, R50). -/
  | unknownMnemonic
  /-- The line has no operand, or something after it (R48: one request, one operand). -/
  | operandCount
  /-- A literal of 2^64 or more, or of more than 16 hex digits (R48). -/
  | literalOutOfRange
  /-- A negative literal (R48). -/
  | negativeLiteral
  /-- `$k` with `k` = 0 or `k` not less than the request's own number (R49). -/
  | badReference
  /-- Any other operand form (R48). -/
  | badOperand
deriving DecidableEq, Repr

end Sys2Proof
end

