-- ==== Sys2Proof/Config.lean ====
section
/-! DEFINITION. The parameters of R5. The fixed ones have values; the OPEN ones are constants without a body, so
that nothing can be proved of their values. -/

namespace Sys2Proof

/-- The smear's shift amounts, in the order of application (R5, R51). -/
def Config.smearShifts : List Nat := [1, 2, 4, 8, 16, 32]

/-- `TOP_BIT_CORRECTED` (R5, R17, R56): fixed to `false` for this hardware, by the spec's decision D7 (entry 7). -/
def Config.topBitCorrected : Bool := false

/-- `LAT_ISO` (R5, R88): OPEN, may depend on the operand; no rule and no definition of the model reads it (entry 13). -/
opaque Config.latIso : Word → Nat

/-- `LAT_POS` (R5, R88): OPEN, may depend on the operand; no rule and no definition of the model reads it (entry 13). -/
opaque Config.latPos : Word → Nat

/-- `N_REQ` less one (R5, D23): OPEN (entry 13). -/
opaque Config.nReqPred : Nat

/-- `N_REQ ≥ 1`, the number of requesters (R5, R78): OPEN. State holds a list of requesters of any length, so what
is proved of the machine holds for every value of it (entry 13). -/
def Config.nReq : Nat := Config.nReqPred + 1

/-- `BLOCK_BASE` (R5, R32): OPEN, the platform's; nothing reads it (entry 13). -/
opaque Config.blockBase : Nat

/-- `HOST_TRANSPORT` (R5, R26), the requests' half: how a host bus carries a request. OPEN, nothing reads it (entry 13). -/
opaque Config.hostRequestTransport : ReqWord → List (BitVec 8)

/-- `HOST_TRANSPORT` (R5, R26), the responses' half. OPEN, nothing reads it (entry 13). -/
opaque Config.hostResponseTransport : Word → List (BitVec 8)

end Sys2Proof
end

