-- ==== Sys2Proof/WellFormed.lean ====
section
/-! DEFINITION. What the spec asks of a request or of a program before it is meaningful. An `Instr` needs no check: every
one of the 2^65 request words is legal (R42), and an operand is any 64-bit value (R40). -/

namespace Sys2Proof

/-- Every bit of the word is defined (R70, R84). -/
def WireWord.defined (w : WireWord) : Bool := w.driven == BitVec.allOnes 65

/-- `$k` in the program's request number `number` must have 1 ≤ k < `number` (R49). -/
def Operand.wellFormed (number : Nat) : Operand → Bool
  | .lit _ => true
  | .ref k => decide (1 ≤ k) && decide (k < number)

def Line.wellFormed (number : Nat) (l : Line) : Bool := l.operand.wellFormed number

/-- The lines are a program's requests, the first of them number `first` (R49: counting from 1). -/
def programWellFormed (first : Nat) : List Line → Bool
  | [] => true
  | l :: rest => l.wellFormed first && programWellFormed (first + 1) rest

/-- A line presents a defined word always; a raw word must be fully defined (R84). -/
def Item.defined : Item → Bool
  | .line _ => true
  | .wire w => w.defined

end Sys2Proof
end

