-- ==== Sys2Proof/Decode.lean ====
section
/-! DEFINITION. The request word `REQ` (R38 to R43), the opcode map (R46), the decoder and the encoder. -/

namespace Sys2Proof

/-- `req.op = req[64]` (R41). -/
def opField (w : ReqWord) : Bool := w.getLsbD 64

/-- `req.x = req[63:0]`, neither extended nor shifted (R40). -/
def operandField (w : ReqWord) : Word := w.extractLsb' 0 64

/-- The instruction of an operation and an operand (R41). -/
def Op.instr : Op → Word → Instr
  | .isolate, x => .msbIso x
  | .position, x => .msbPos x

def Instr.op : Instr → Op
  | .msbIso _ => .isolate
  | .msbPos _ => .position

def Instr.operand : Instr → Word
  | .msbIso x => x
  | .msbPos x => x

/-- The value of the op field (R41: 0 is ISOLATE, 1 is POSITION). -/
def Op.bit : Op → BitVec 1
  | .isolate => 0#1
  | .position => 1#1

/-- The decoder: total on any 65-bit word (R41, R42). -/
def decode (w : ReqWord) : Instr :=
  if opField w then .msbPos (operandField w) else .msbIso (operandField w)

/-- The encoder, `{op, x}` (R38). -/
def encode (i : Instr) : ReqWord := i.op.bit ++ i.operand

/-- A fully defined word as a requester presents it. -/
def WireWord.ofWord (w : ReqWord) : WireWord := ⟨w, BitVec.allOnes 65⟩

/-- Decoding what stands on the wires: refused by name if a bit is undefined (R70, D25); nothing else is refused (R42). -/
def decodeWire (w : WireWord) : Except DecodeError Instr :=
  if w.defined then .ok (decode w.bits) else .error .undefinedBits

/-- A row of the opcode map (R46). -/
structure OpcodeRow where
  op : Op
  mask : ReqWord
  pattern : ReqWord
deriving DecidableEq, Repr

/-- The complete opcode map (R46; `match` is called `pattern` here, since the other is a word of Lean's). -/
def opcodeMap : List OpcodeRow :=
  [⟨.isolate, 0x10000000000000000#65, 0x00000000000000000#65⟩,
   ⟨.position, 0x10000000000000000#65, 0x10000000000000000#65⟩]

/-- A word selects the row when `(w & mask) = match` (R46). -/
def OpcodeRow.selects (row : OpcodeRow) (w : ReqWord) : Bool := (w &&& row.mask) == row.pattern

/-- The host's reading of a table row's bits: the request word as one number, bit 0 its least significant bit (R38, R47). The block
has no bytes and no byte order (R26), so no layout comes between; a number of more than 65 bits is no request word (entry 16). -/
def decodeTableWord (_nbits w : Nat) : Option Instr :=
  if w < 2 ^ 65 then some (decode (BitVec.ofNat 65 w)) else none

end Sys2Proof
end

