-- ==== Sys2Proof/Machine/Datapath.lean ====
section
/-! DEFINITION. The shared bit-smear datapath (R51), ISOLATE's and POSITION's results (R54, R61), and result dispatch (R45). `>>>` on
`BitVec` is the logical shift and `+` is modulo 2^64 (R7; K1, entry 9). -/

namespace Sys2Proof.Machine

/-- One OR-shift step of the smear (R51). -/
def smearStep (s : Word) (n : Nat) : Word := s ||| (s >>> n)

/-- OR-shift steps in the given order (R53 lets an implementation choose one). -/
def smearBy (shifts : List Nat) (x : Word) : Word := shifts.foldl smearStep x

/-- `smear(x)`: the six steps of R51, in its order. -/
def smear (x : Word) : Word := smearBy Config.smearShifts x

/-- The single-level OR of all 64 shifted copies (R52, R53). -/
def smearWide (x : Word) : Word := (List.range 64).foldl (fun acc k => acc ||| (x >>> k)) 0#64

/-- ISOLATE with the design parameter `TOP_BIT_CORRECTED` as an argument (R56): the corrected variant gives 2^63 for an operand with bit 63
set; otherwise the pseudocode of R54, whose increment wraps modulo 2^64. -/
def isoWith (corrected : Bool) (x : Word) : Word :=
  if corrected && x.getLsbD 63 then 1#64 <<< 63 else (smear x + 1#64) >>> 1

/-- `iso(x)` (R54) of this hardware. -/
def iso (x : Word) : Word := isoWith Config.topBitCorrected x

/-- POSITION's loop (R61): while v > 1, shift v right by one and count. The first argument bounds the iterations; 63 always suffice (R62,
entry 17). -/
def posLoop : Nat → Word → Nat → Nat
  | 0, _, count => count
  | fuel + 1, v, count => if 1#64 < v then posLoop fuel (v >>> 1) (count + 1) else count

/-- `pos(x)`: the loop over the smeared value, not over ISOLATE's result (R61, R66). -/
def pos (x : Word) : Nat := posLoop 64 (smear x) 0

/-- The construction that R66 says does NOT conform: the loop over `iso(x)`. No meaning uses it. -/
def posViaIso (x : Word) : Nat := posLoop 64 (iso x) 0

/-- `msbidx(x) = floor(log2(x))`, meant for x ≥ 1 only (R7, R9). -/
def msbidx (x : Word) : Nat := Nat.log2 x.toNat

/-- `zext_64` of a count (R44, R65). -/
def zext64 (n : Nat) : Word := BitVec.ofNat 64 n

/-- `result(req)` (R45): total, and a function of the request alone. -/
def result (w : ReqWord) : Word :=
  match decode w with
  | .msbIso x => iso x
  | .msbPos x => zext64 (pos x)

end Sys2Proof.Machine
end

