-- ==== Sys2Proof/Machine/State.lean ====
section
/-! DEFINITION. The state of the machine at transaction level (R21): the block's `pending` and `log`, the requesters' own state, and
the outside agents' moves still to come. The block itself holds no architectural state (R13 to R20): no register, program counter,
flag, mode, memory or address space exists, so none stands here. -/

namespace Sys2Proof.Machine

/-- A request the block has accepted and not yet answered, with the id of the requester that made it (R21). -/
structure Pending where
  requester : Nat
  req : ReqWord
deriving DecidableEq, Repr

/-- An answer the block has given (R21). -/
structure Entry where
  requester : Nat
  req : ReqWord
  rsp : Word
deriving DecidableEq, Repr

/-- A request still to issue, under its number in the requester's program, counting from 1 (R21, R49). -/
structure Numbered where
  number : Nat
  item : Item
deriving DecidableEq, Repr

/-- A request that was issued, with its number and its word. -/
structure Sent where
  number : Nat
  req : ReqWord
deriving DecidableEq, Repr

/-- A response received, under the number of the request it answers (R21, R49). -/
structure Received where
  number : Nat
  rsp : Word
deriving DecidableEq, Repr

/-- A requester's own state (R21), outside the block, which reads none of it. DEDUCED: `inFlight` and `dropped` are what a requester
must know so that responses are numbered by request although a reset drops some (R23, R49, R82); entry 4. -/
structure Requester where
  /-- The requests still to issue, in program order (R21). -/
  toIssue : List Numbered
  /-- Issued, neither answered nor dropped, oldest first. -/
  inFlight : List Sent
  /-- The responses received (R21). -/
  received : List Received
  /-- Dropped by a reset and not to be issued again: these never get an answer (R23, R82). -/
  dropped : List Sent
  /-- Whether the requester issues a dropped request again (R82; the requesters of P5 in 95_test_vectors.md do). -/
  reissues : Bool
deriving DecidableEq, Repr

/-- A move of the machine: the steps of R22 and R82. -/
inductive Event where
  /-- Requester `r` issues its next request and the block accepts it (R22). -/
  | accept (r : Nat)
  /-- The block answers the oldest pending request (R22). -/
  | respond
  /-- Reset is asserted (R82). -/
  | reset
deriving DecidableEq, Repr

/-- The whole machine. Requester number r is the r-th of `requesters`, from 0; one beyond the list is an agent whose own state the model
does not hold (entry 12). -/
structure State where
  /-- Accepted and not yet answered, oldest first (R21). -/
  pending : List Pending
  /-- Every answer given, in order (R21): the observation. -/
  log : List Entry
  /-- The requesters' own state (R21). -/
  requesters : List Requester
  /-- DESIGN CHOICE (entry 1), the model's own field: the moves still to come, in the order in which they happen. Accept order (R78), latency
  (R88) and the moment of a reset (R82) are open, so it is any list. -/
  agenda : List Event
deriving DecidableEq, Repr

/-- No case of the block is a fault (R69; 93_implementation_defined.md): there is no constructor. -/
inductive Fault where
deriving DecidableEq, Repr

/-- Why a step gives no next state. -/
inductive Refusal where
  /-- Raised by an arm of `exec` that has no meaning yet; no arm of this model does. Safe. -/
  | notModelled (mnemonic : String)
  /-- Raised when the requester's next request has an undefined bit: the model refuses it and gives no response value (R70, D25, I8). Safe
  (entry 5). -/
  | undefinedRequest (requester : Nat)
  /-- Raised by a meaning run with nothing pending: Respond is enabled only when `pending` is non-empty (R22). `step` never does so.
  Safe (entry 6). -/
  | noRequestPending
deriving DecidableEq, Repr

/-- The machine right after reset with nothing yet presented: `pending` empty (R24, R82); `log` empty, since no answer has been given (the
start state of 95_test_vectors.md section 3); DESIGN CHOICE: no requester described and no move to come (entry 10). There is no reset vector,
entry point or initial mode (R24, R83). -/
def State.reset : State where
  pending := []
  log := []
  requesters := []
  agenda := []

end Sys2Proof.Machine
end

