-- ==== Sys2Proof/Machine/Operands.lean ====
section
/-! DEFINITION. The operand forms of a requester's program (R48, R49): what a requester puts in a request's `x` field, and when it can. -/

namespace Sys2Proof.Machine

/-- The response a requester has received to its request number k, if it has (R49). -/
def responseTo (received : List Received) (k : Nat) : Option Word :=
  (received.find? fun e => e.number == k).map Received.rsp

/-- The operand's value, or none while the response it names has not arrived: the requester holds (R49, R86). -/
def operandValue (received : List Received) : Operand → Option Word
  | .lit x => some x
  | .ref k => responseTo received k

/-- The word the requester presents for an item, or none while it holds. A line's word is an ordinary request (R38, R49). -/
def presentItem (received : List Received) : Item → Option WireWord
  | .line l => (operandValue received l.operand).map fun x => WireWord.ofWord (encode (l.op.instr x))
  | .wire w => some w

end Sys2Proof.Machine
end

