-- ==== Sys2Proof/Machine/Ops.lean ====
section
/-! DEFINITION. The named operations: a requester's side of issuing, of receiving and of a reset, and the block's steps Accept, Respond
(R22) and Reset (R82). The block takes no exception and has none to return from (R69, R73), so no such operation exists. -/

namespace Sys2Proof.Machine

/-- The word a requester presents next, or none: nothing left to issue, or it holds for a response (R86). -/
def Requester.offer (q : Requester) : Option WireWord :=
  match q.toIssue with
  | [] => none
  | n :: _ => presentItem q.received n.item

/-- The requester after its next request was accepted as the word `w`. -/
def Requester.sent (w : ReqWord) (q : Requester) : Requester :=
  match q.toIssue with
  | [] => q
  | n :: rest => { q with toIssue := rest, inFlight := q.inFlight ++ [⟨n.number, w⟩] }

/-- The requester after a response: the block answers in order, so it belongs to the oldest request in flight (R22, R34). -/
def Requester.receive (v : Word) (q : Requester) : Requester :=
  match q.inFlight with
  | [] => q
  | n :: rest => { q with inFlight := rest, received := q.received ++ [⟨n.number, v⟩] }

/-- The dropped request as it is issued again: the same word under the same number (R82, P5). -/
def Sent.again (n : Sent) : Numbered := ⟨n.number, .wire (WireWord.ofWord n.req)⟩

/-- The requester after a reset dropped its requests in flight (R82): it issues them again before the rest of its program, or never. -/
def Requester.afterReset (q : Requester) : Requester :=
  if q.reissues then { q with toIssue := q.inFlight.map Sent.again ++ q.toIssue, inFlight := [] }
  else { q with dropped := q.dropped ++ q.inFlight, inFlight := [] }

/-- A program's requests under their numbers, the first of them number `first` (R49: counting from 1). -/
def numberItems (first : Nat) : List Item → List Numbered
  | [] => []
  | i :: rest => ⟨first, i⟩ :: numberItems (first + 1) rest

/-- A requester that starts the given program (R21, R48): nothing issued yet. -/
def Requester.start (items : List Item) (reissues : Bool) : Requester where
  toIssue := numberItems 1 items
  inFlight := []
  received := []
  dropped := []
  reissues := reissues

/-- A new requester with a program, loaded from outside the machine (entry 11). -/
def State.load (s : State) (items : List Item) (reissues : Bool) : State :=
  { s with requesters := s.requesters ++ [Requester.start items reissues] }

/-- The state with the rest of the agenda. -/
def State.withAgenda (s : State) (agenda : List Event) : State := { s with agenda := agenda }

/-- The word requester `r` presents next, if it does. -/
def State.offer (s : State) (r : Nat) : Option WireWord := s.requesters[r]?.bind Requester.offer

/-- Accept(r, req) of R22, and requester r's note of it. -/
def State.enqueue (s : State) (r : Nat) (w : ReqWord) : State :=
  { s with
    pending := s.pending ++ [⟨r, w⟩]
    requesters := s.requesters.modify r (Requester.sent w) }

/-- Respond of R22 for the head `p` of `pending` with the response `v`: pop, log, and hand `v` to the requester. -/
def State.answer (s : State) (p : Pending) (rest : List Pending) (v : Word) : State :=
  { s with
    pending := rest
    log := s.log ++ [⟨p.requester, p.req, v⟩]
    requesters := s.requesters.modify p.requester (Requester.receive v) }

/-- Reset of R82: `pending` is emptied and `log` stays; the requesters take note (entry 4). -/
def State.resetBlock (s : State) : State :=
  { s with
    pending := []
    requesters := s.requesters.map Requester.afterReset }

/-- `respond(v)` (R8, R22): enabled when something is pending; nothing else is a transition (entry 6). -/
def respond (v : Word) (s : State) : Host.Outcome State Fault Refusal :=
  match s.pending with
  | [] => .refused .noRequestPending
  | p :: rest => .next (s.answer p rest v)

/-- Requester `r` issues its next request. A word with an undefined bit is refused (R70); a requester that has nothing to present, or holds,
makes no move (R86; DESIGN CHOICE, entry 3). -/
def accept (r : Nat) (s : State) : Host.Outcome State Fault Refusal :=
  match s.offer r with
  | none => .next s
  | some w => if w.defined then .next (s.enqueue r w.bits) else .refused (.undefinedRequest r)

/-- The request the block answers next, decoded: the head of `pending` (R22). -/
def fetch (s : State) : Option Instr :=
  match s.pending with
  | [] => none
  | p :: _ => some (decode p.req)

/-- The agenda with the block's own move first; an empty one has it first already (entry 11). -/
def blockFirst : List Event → List Event
  | [] => []
  | e :: rest => .respond :: e :: rest

/-- The request word `w` placed at the head of `pending` for a requester outside the list, with the block to move (entry 11). -/
def State.place (s : State) (w : ReqWord) : State :=
  { s with
    pending := ⟨s.requesters.length, w⟩ :: s.pending
    agenda := blockFirst s.agenda }

end Sys2Proof.Machine
end

