-- ==== Sys2Proof/Machine/Isolate.lean ====
section
/-! DEFINITION. ISOLATE, `msb.iso` (R54). -/

namespace Sys2Proof.Machine

/-- `msb.iso: respond(iso(req.x))` (R54): no flag (R16), no exception (R69). -/
def execMsbIso (x : Word) (s : State) : Host.Outcome State Fault Refusal := respond (iso x) s

end Sys2Proof.Machine
end

