-- ==== Sys2Proof/Machine/Position.lean ====
section
/-! DEFINITION. POSITION, `msb.pos` (R61). -/

namespace Sys2Proof.Machine

/-- `msb.pos: respond(zext_64(pos(req.x)))` (R61): no flag or zero indicator (R16, R63), no exception (R69). -/
def execMsbPos (x : Word) (s : State) : Host.Outcome State Fault Refusal := respond (zext64 (pos x)) s

end Sys2Proof.Machine
end

