-- ==== Sys2Proof/Machine/Dispatch.lean ====
section
/-! DEFINITION. One arm for each instruction of the opcode table (R46). -/

namespace Sys2Proof.Machine

def exec (i : Instr) (s : State) : Host.Outcome State Fault Refusal :=
  match i with
  | .msbIso x => Sys2Proof.Machine.execMsbIso x s
  | .msbPos x => Sys2Proof.Machine.execMsbPos x s

end Sys2Proof.Machine
end

