-- ==== Sys2Proof/Machine/Step.lean ====
section
/-! DEFINITION. One step of the machine: the next move of the agenda, each atomic (R22, R82). -/

namespace Sys2Proof.Machine

/-- The block's move: it answers the oldest pending request, or, with nothing pending, has no move and nothing changes (R22, R80; entries 2, 3). -/
def serve (s : State) : Host.Outcome State Fault Refusal :=
  match fetch s with
  | none => .next s
  | some i => exec i s

/-- One step. When no outside move is to come the block answers what is pending: DESIGN CHOICE (entry 2), the fairness of R22. -/
def step (s : State) : Host.Outcome State Fault Refusal :=
  match s.agenda with
  | [] => serve s
  | .accept r :: rest => accept r (s.withAgenda rest)
  | .respond :: rest => serve (s.withAgenda rest)
  | .reset :: rest => .next (s.withAgenda rest).resetBlock

/-- `s` with the request word `w` as the next request the block answers, and the block to move next (entry 11). -/
def State.withFetchWord (s : State) (_nbits w : Nat) : State := s.place (BitVec.ofNat 65 w)

end Sys2Proof.Machine
end

