-- ==== Sys2Proof/Machine/Assembler.lean ====
section
/-! DEFINITION. The assembly syntax of a requester's program (R48 to R50) and the assembler's refusals (I11). A source text is a list of
lines, each a list of characters. What R48 leaves open of the text (spaces, the case of hex digits, leading zeros) is entry 15. -/

namespace Sys2Proof.Machine

/-- Everything from `;` to the end of the line is a comment (R48). -/
def stripComment (src : List Char) : List Char := src.takeWhile (· != ';')

/-- DESIGN CHOICE (entry 15): words of a line are parted by spaces and tabs. -/
def isBlank (c : Char) : Bool := c == ' ' || c == '\t'

/-- The words of a line; `word` is what has been read of the current one. -/
def wordsFrom (word : List Char) : List Char → List (List Char)
  | [] => if word.isEmpty then [] else [word]
  | c :: rest =>
    if isBlank c then (if word.isEmpty then wordsFrom [] rest else word :: wordsFrom [] rest)
    else wordsFrom (word ++ [c]) rest

/-- The value of a decimal digit. -/
def decimalDigit (c : Char) : Option Nat :=
  if 48 ≤ c.toNat && c.toNat ≤ 57 then some (c.toNat - 48) else none

/-- The value of a hex digit, of either case (DESIGN CHOICE, entry 15). -/
def hexDigit (c : Char) : Option Nat :=
  if 48 ≤ c.toNat && c.toNat ≤ 57 then some (c.toNat - 48)
  else if 97 ≤ c.toNat && c.toNat ≤ 102 then some (c.toNat - 87)
  else if 65 ≤ c.toNat && c.toNat ≤ 70 then some (c.toNat - 55)
  else none

/-- The number that digits write, the most significant first. -/
def digitsValue (base : Nat) (digits : List Nat) : Nat := digits.foldl (fun n d => n * base + d) 0

/-- An unsigned decimal literal (R48): one digit or more, and nothing else. -/
def decimalLiteral (text : List Char) : Option Nat :=
  if text.isEmpty then none else (text.mapM decimalDigit).map (digitsValue 10)

/-- Hex digits with an optional `_` between two digits (R48); `afterDigit` says that a digit stands just before. -/
def hexDigits (afterDigit : Bool) : List Char → Option (List Nat)
  | [] => if afterDigit then some [] else none
  | c :: rest =>
    match hexDigit c with
    | some d => (hexDigits true rest).map (d :: ·)
    | none => if c == '_' && afterDigit then hexDigits false rest else none

/-- A literal's value must lie in [0, 2^64 − 1] (R48). -/
def literalOf (n : Nat) : Except AsmError Operand :=
  if n < 2 ^ 64 then .ok (.lit (BitVec.ofNat 64 n)) else .error .literalOutOfRange

/-- The text after `0x`: 1 to 16 hex digits (R48). -/
def hexOperand (text : List Char) : Except AsmError Operand :=
  match hexDigits false text with
  | none => .error .badOperand
  | some digits => if digits.length ≤ 16 then literalOf (digitsValue 16 digits) else .error .literalOutOfRange

/-- The text after `$`, in the program's request number `number` (R49). -/
def refOperand (number : Nat) (text : List Char) : Except AsmError Operand :=
  match decimalLiteral text with
  | none => .error .badOperand
  | some k => if 1 ≤ k ∧ k < number then .ok (.ref k) else .error .badReference

/-- An operand, in the program's request number `number` (R48, R49). -/
def parseOperand (number : Nat) (text : List Char) : Except AsmError Operand :=
  match text with
  | '$' :: rest => refOperand number rest
  | '-' :: _ => .error .negativeLiteral
  | '0' :: 'x' :: rest => hexOperand rest
  | _ =>
    match decimalLiteral text with
    | none => .error .badOperand
    | some n => literalOf n

/-- The mnemonics, in lower case (R48). -/
def mnemonicText : Op → List Char
  | .isolate => ['m', 's', 'b', '.', 'i', 's', 'o']
  | .position => ['m', 's', 'b', '.', 'p', 'o', 's']

/-- There is no other mnemonic (R46, R50). -/
def parseMnemonic (text : List Char) : Option Op :=
  if text = mnemonicText .isolate then some .isolate
  else if text = mnemonicText .position then some .position
  else none

/-- One source line, which would be the program's request number `number`: none where it holds no request (R48). -/
def assembleLine (number : Nat) (src : List Char) : Except AsmError (Option Line) :=
  match wordsFrom [] (stripComment src) with
  | [] => .ok none
  | m :: operands =>
    match parseMnemonic m with
    | none => .error .unknownMnemonic
    | some op =>
      match operands with
      | [text] =>
        match parseOperand number text with
        | .ok operand => .ok (some ⟨op, operand⟩)
        | .error e => .error e
      | _ => .error .operandCount

/-- Source lines, whose first request is number `number`; the first bad line stops the assembler. -/
def assembleFrom (number : Nat) : List (List Char) → Except AsmError (List Line)
  | [] => .ok []
  | src :: rest =>
    match assembleLine number src with
    | .error e => .error e
    | .ok none => assembleFrom number rest
    | .ok (some l) =>
      match assembleFrom (number + 1) rest with
      | .error e => .error e
      | .ok ls => .ok (l :: ls)

/-- A whole program (R48). -/
def assemble (src : List (List Char)) : Except AsmError (List Line) := assembleFrom 1 src

/-- An assembled program given to a new requester (entry 11). -/
def State.loadProgram (s : State) (program : List Line) (reissues : Bool) : State :=
  s.load (program.map Item.line) reissues

/-- The 16 hex digits of a word, as R47 writes them but in lower case (DESIGN CHOICE, entry 15). -/
def hexText (x : Word) : List Char :=
  (List.range 16).map fun i => Nat.digitChar (x.toNat / 16 ^ (15 - i) % 16)

/-- Decimal digits of n before `tail`, for n < 10^fuel. -/
def decimalText : Nat → Nat → List Char → List Char
  | 0, _, tail => tail
  | fuel + 1, n, tail =>
    if n < 10 then Nat.digitChar n :: tail else decimalText fuel (n / 10) (Nat.digitChar (n % 10) :: tail)

def operandText : Operand → List Char
  | .lit x => '0' :: 'x' :: hexText x
  | .ref k => '$' :: decimalText (k + 1) k []

/-- One source text for a line (R48), its words parted by a space (DESIGN CHOICE, entry 15): every well-formed line has one. -/
def lineText (l : Line) : List Char := mnemonicText l.op ++ ' ' :: operandText l.operand

end Sys2Proof.Machine
end

