-- ==== Sys2Proof/Safety.lean ====
section
/-! DEFINITION. What statements about runs are said in: the block's part of the state and its transition relation (R21, R22, R82), the end
of a run (R23), and the invariants of the machine. -/

namespace Sys2Proof.Machine

/-- The block's model state: exactly `pending` and `log` (R21, D1). -/
structure Block where
  pending : List Pending
  log : List Entry
deriving DecidableEq, Repr

def State.block (s : State) : Block := ⟨s.pending, s.log⟩

/-- The block's steps as the spec writes them: Accept and Respond of R22, Reset of R82. Which one happens, and for which requester, is
open (R78). -/
inductive BlockStep : Block → Block → Prop where
  | accept (b : Block) (r : Nat) (w : ReqWord) : BlockStep b ⟨b.pending ++ [⟨r, w⟩], b.log⟩
  | respond (r : Nat) (w : ReqWord) (rest : List Pending) (log : List Entry) :
      BlockStep ⟨⟨r, w⟩ :: rest, log⟩ ⟨rest, log ++ [⟨r, w, result w⟩]⟩
  | reset (b : Block) : BlockStep b ⟨[], b.log⟩

/-- Any number of block steps. -/
inductive BlockRun : Block → Block → Prop where
  | refl (b : Block) : BlockRun b b
  | head (a b c : Block) : BlockStep a b → BlockRun b c → BlockRun a c

/-- The requester has issued every request of its program, and every request it issued was answered (R23): a request dropped and not issued
again never is. -/
def Requester.done (q : Requester) : Bool := q.toIssue.isEmpty && q.inFlight.isEmpty && q.dropped.isEmpty

/-- A run has ended (R23). -/
def runEnded (s : State) : Bool := s.pending.isEmpty && s.requesters.all Requester.done

/-- The accepted requests in acceptance order: those answered, then those pending. -/
def State.history (s : State) : List Pending := (s.log.map fun e => ⟨e.requester, e.req⟩) ++ s.pending

/-- Requester r's answers, in the order the block gave them. -/
def State.answersTo (s : State) (r : Nat) : List Word := (s.log.filter fun e => e.requester == r).map Entry.rsp

/-- Requester r's pending requests, oldest first. -/
def State.pendingOf (s : State) (r : Nat) : List ReqWord := (s.pending.filter fun p => p.requester == r).map Pending.req

/-- Every answer given is `result(req)` of its own request (R34, R45). -/
def LogSound (s : State) : Prop := ∀ e ∈ s.log, e.rsp = result e.req

/-- What a requester has in flight is what the block holds of its requests, in the same order. -/
def FlightMatches (s : State) : Prop :=
  ∀ r q, s.requesters[r]? = some q → q.inFlight.map Sent.req = s.pendingOf r

/-- Each requester has received exactly the answers the block gave it, in that order (R22, R34). -/
def DeliveryMatches (s : State) : Prop :=
  ∀ r q, s.requesters[r]? = some q → q.received.map Received.rsp = s.answersTo r

/-- The numbers of a requester's requests: received, in flight, to issue. -/
def Requester.numbers (q : Requester) : List Nat :=
  q.received.map Received.number ++ q.inFlight.map Sent.number ++ q.toIssue.map Numbered.number

/-- A requester's responses, its requests in flight and those still to issue stand in program order, and a request dropped for good is
none of them (R21, R34, R49). -/
def Requester.ordered (q : Requester) : Prop :=
  q.numbers.Pairwise (· < ·) ∧ ∀ d ∈ q.dropped, d.number ∉ q.numbers

def ProgramOrder (s : State) : Prop := ∀ q ∈ s.requesters, q.ordered

/-- Every request still to issue is fully defined (R84). -/
def AllDefined (s : State) : Prop := ∀ q ∈ s.requesters, ∀ n ∈ q.toIssue, n.item.defined = true

/-- No reset is to come. -/
def NoReset (s : State) : Prop := Event.reset ∉ s.agenda

/-- From `s` to `t`, requester r alone was handed the response `v`, for its oldest request in flight (R22): every other requester, and
everything else of r, is as before. An r beyond the list, or with nothing in flight, has no request of its program to number the response by. -/
def HandedTo (s t : State) (r : Nat) (v : Word) : Prop :=
  t.requesters.length = s.requesters.length ∧
  (∀ r', r' ≠ r → t.requesters[r']? = s.requesters[r']?) ∧
  (∀ q, s.requesters[r]? = some q → q.inFlight = [] → t.requesters[r]? = some q) ∧
  (∀ q n rest, s.requesters[r]? = some q → q.inFlight = n :: rest →
    t.requesters[r]? = some { q with inFlight := rest, received := q.received ++ [⟨n.number, v⟩] })

/-- In the first `n` steps from `s`, requester r's request number k was accepted, as the request word `w`: at some step an accept of r was to
come, k was the number of the next request r had to issue, and r presented `w`, fully defined. It speaks of what was presented, not of what
the block or the requester noted of it. -/
def AcceptedAs (s : State) (n r k : Nat) (w : ReqWord) : Prop :=
  ∃ (j : Nat) (m : State) (ev : List Event) (q : Requester) (item : Item) (rest : List Numbered) (presented : WireWord),
    j < n ∧ Sys2Proof.core.run j s = .next m ∧ m.agenda = .accept r :: ev ∧
    m.requesters[r]? = some q ∧ q.toIssue = ⟨k, item⟩ :: rest ∧ presentItem q.received item = some presented ∧
    presented.driven = BitVec.allOnes 65 ∧ presented.bits = w

/-- The answer the block owes a pending request (R45). -/
def Pending.answered (p : Pending) : Entry := ⟨p.requester, p.req, result p.req⟩

end Sys2Proof.Machine
end

