-- ==== Sys2Proof/Certificates/Slice0/Obligations.lean ====
section
/-! DEFINITION. The statements for the provers. Each docstring names the rule of spec/ that the statement formalises; where a clause rests
on a choice of the model, it names the assumption log's entry. -/

open Sys2Proof Sys2Proof.Machine

/-! ## Encoding -/

/-- Every instruction's request word decodes to that instruction (R38, R40, R41, R42). -/
def Obligations.DecodeOfEncode : Prop := ∀ i : Instr, decode (encode i) = i

/-- Every one of the 2^65 words is the request word of the instruction it decodes to: no word has two meanings or none (R42). -/
def Obligations.EncodeOfDecode : Prop := ∀ w : ReqWord, encode (decode w) = w

/-- R42: op = 0 gives ISOLATE and op = 1 gives POSITION, of the operand whose bits are the word's low 64. -/
def Obligations.EveryWordDecodesByItsOpBit : Prop :=
  ∀ (w : ReqWord) (x : Word), (∀ i, i < 64 → x.getLsbD i = w.getLsbD i) →
    (w.getLsbD 64 = false → decode w = .msbIso x) ∧ (w.getLsbD 64 = true → decode w = .msbPos x)

/-- R46: the opcode map's two rows; each word selects exactly one, that of its instruction. -/
def Obligations.EveryWordSelectsOneRow : Prop :=
  opcodeMap = [⟨.isolate, 0x10000000000000000#65, 0x0#65⟩, ⟨.position, 0x10000000000000000#65, 0x10000000000000000#65⟩] ∧
  ∀ w : ReqWord, (opcodeMap.filter fun row => (w &&& row.mask) == row.pattern).map OpcodeRow.op = [(decode w).op]

/-- R47: the word's number is op * 2^64 + x; with the rule's two examples. -/
def Obligations.RequestWordNumber : Prop :=
  (∀ x : Word, (encode (.msbIso x)).toNat = 0 * 2 ^ 64 + x.toNat ∧ (encode (.msbPos x)).toNat = 1 * 2 ^ 64 + x.toNat) ∧
  encode (.msbIso 203#64) = 0x000000000000000CB#65 ∧ encode (.msbPos 203#64) = 0x100000000000000CB#65

/-- The words of 95_test_vectors.md section 2.5 decode to the operations and operands it lists. -/
def Obligations.SampleRequestWordsDecode : Prop :=
  decode 0x00000000000000000#65 = .msbIso 0x0#64 ∧ decode 0x10000000000000000#65 = .msbPos 0x0#64 ∧
  decode 0x0FFFFFFFFFFFFFFFF#65 = .msbIso 0xFFFFFFFFFFFFFFFF#64 ∧ decode 0x1FFFFFFFFFFFFFFFF#65 = .msbPos 0xFFFFFFFFFFFFFFFF#64 ∧
  decode 0x000000000000000CB#65 = .msbIso 0xCB#64 ∧ decode 0x100000000000000CB#65 = .msbPos 0xCB#64 ∧
  decode 0x18000000000000000#65 = .msbPos 0x8000000000000000#64

/-- R70, D25: a presented word is refused exactly when some bit of it is undefined; otherwise it is the request its bits say. -/
def Obligations.WireDecodingRefusesUndefinedBits : Prop :=
  ∀ w : WireWord,
    ((∀ i, i < 65 → w.driven.getLsbD i = true) → decodeWire w = .ok (decode w.bits)) ∧
    (∀ i, i < 65 → w.driven.getLsbD i = false → decodeWire w = .error .undefinedBits)

/-! ## The datapath -/

/-- R7, R9: `msbidx(x)` is the largest p with 2^p ≤ x. -/
def Obligations.MsbidxIsLargestPower : Prop :=
  ∀ x : Word, 1 ≤ x.toNat → 2 ^ msbidx x ≤ x.toNat ∧ ∀ p, 2 ^ p ≤ x.toNat → p ≤ msbidx x

/-- R52: the closed form of the smeared value, and the OR of all shifted copies. -/
def Obligations.SmearClosedForm : Prop :=
  smear 0#64 = 0#64 ∧
  (∀ x : Word, 1 ≤ x.toNat → (smear x).toNat = 2 ^ (msbidx x + 1) - 1 ∧
    ∀ i, i < 64 → ((smear x).getLsbD i = true ↔ i ≤ msbidx x)) ∧
  (∀ x : Word, 2 ^ 63 ≤ x.toNat → msbidx x = 63 ∧ (smear x).toNat = 2 ^ 64 - 1) ∧
  ∀ x : Word, smear x = (List.range 64).foldl (fun acc k => acc ||| (x >>> k)) 0#64

/-- R53: the six steps give the same value in any order, and so does the single-level OR. -/
def Obligations.SmearInAnyOrder : Prop :=
  ∀ (x : Word) (shifts : List Nat), shifts.Perm [1, 2, 4, 8, 16, 32] → smearBy shifts x = smear x ∧ smearWide x = smear x

/-- R55: on 1 ≤ x ≤ 2^63 − 1, `iso(x) = 2^p` for p = msbidx(x) ≤ 62, exactly one bit is set, and `2^p ≤ x < 2 * 2^p`. -/
def Obligations.IsoIsHighestPowerOfTwo : Prop :=
  ∀ x : Word, 1 ≤ x.toNat → x.toNat ≤ 2 ^ 63 - 1 →
    (iso x).toNat = 2 ^ msbidx x ∧ msbidx x ≤ 62 ∧ (∀ i, (iso x).getLsbD i = true ↔ i = msbidx x) ∧
    (iso x).toNat ≤ x.toNat ∧ x.toNat < 2 * (iso x).toNat

/-- R56: for every top-bit input the smeared value is all ones, the increment wraps to 0, and the result is 0; the corrected variant, which
this hardware is not, would give 2^63. -/
def Obligations.IsoOfTopBitInputIsZero : Prop :=
  Config.topBitCorrected = false ∧
  ∀ x : Word, (x.getLsbD 63 = true ↔ 2 ^ 63 ≤ x.toNat) ∧
    (2 ^ 63 ≤ x.toNat → (smear x).toNat = 2 ^ 64 - 1 ∧ smear x + 1#64 = 0#64 ∧ iso x = 0#64 ∧ (isoWith true x).toNat = 2 ^ 63)

/-- R57: ISOLATE on 0: the steps and the result; the same result as for every top-bit input. -/
def Obligations.IsoOfZero : Prop :=
  smear 0#64 = 0#64 ∧ smear 0#64 + 1#64 = 1#64 ∧ iso 0#64 = 0#64 ∧ ∀ x : Word, 2 ^ 63 ≤ x.toNat → iso x = iso 0#64

/-- R58: ISOLATE is idempotent, on every operand. -/
def Obligations.IsoIdempotent : Prop := ∀ x : Word, iso (iso x) = iso x

/-- R59: the complete result table of ISOLATE. -/
def Obligations.IsoResultTable : Prop :=
  ∀ x : Word, (x.toNat = 0 → (iso x).toNat = 0) ∧
    (1 ≤ x.toNat → x.toNat ≤ 2 ^ 63 - 1 → (iso x).toNat = 2 ^ msbidx x) ∧
    (2 ^ 63 ≤ x.toNat → x.toNat ≤ 2 ^ 64 - 1 → (iso x).toNat = 0)

/-- R60: every response of ISOLATE is 0 or 2^p with p ≤ 62; none is 2^63 and none has two bits set. -/
def Obligations.IsoRange : Prop :=
  ∀ x : Word, (iso x = 0#64 ∨ ∃ p, p ≤ 62 ∧ (iso x).toNat = 2 ^ p) ∧ (iso x).toNat ≠ 2 ^ 63 ∧
    ∀ i j, (iso x).getLsbD i = true → (iso x).getLsbD j = true → i = j

/-- R62: `pos(x) = floor(log2(x))` for x ≥ 1 and `pos(0) = 0`; the loop body runs exactly `pos(x)` times, at most 63, so that any bound of 63
iterations or more gives the same count (entry 17). -/
def Obligations.PosClosedForm : Prop :=
  (∀ x : Word, 1 ≤ x.toNat → pos x = msbidx x) ∧ pos 0#64 = 0 ∧
  ∀ x : Word, pos x ≤ 63 ∧ (∀ k, k ≤ 63 → (1 < (smear x >>> k).toNat ↔ k < pos x)) ∧
    ∀ fuel, 63 ≤ fuel → posLoop fuel (smear x) 0 = pos x

/-- R63: POSITION on 0 gives 0, and its response is that for 1: the block adds no zero indicator. -/
def Obligations.PosOfZeroEqualsPosOfOne : Prop :=
  pos 0#64 = 0 ∧ pos 1#64 = 0 ∧ result (encode (.msbPos 0#64)) = 0#64 ∧ result (encode (.msbPos 0#64)) = result (encode (.msbPos 1#64))

/-- R64: POSITION on every top-bit input gives 63: R61's loop over the smeared value (the spec's decision D8; entry 8). -/
def Obligations.PosOfTopBitInput : Prop :=
  ∀ x : Word, 2 ^ 63 ≤ x.toNat → (smear x).toNat = 2 ^ 64 - 1 ∧ pos x = 63

/-- R65: the count is in 0..63; the response's low 6 bits hold it and its bits 63..6 are 0. -/
def Obligations.PosRange : Prop :=
  ∀ x : Word, pos x ≤ 63 ∧ ((zext64 (pos x)).extractLsb' 0 6).toNat = pos x ∧ ((zext64 (pos x)).extractLsb' 6 58) = 0#58

/-- R66: the loop on `smear(x)` beside the loop on `iso(x)`, row by row. -/
def Obligations.PosBuiltOnIsoDiffers : Prop :=
  (pos 0#64 = 0 ∧ posViaIso 0#64 = 0) ∧
  (∀ x : Word, 1 ≤ x.toNat → x.toNat ≤ 2 ^ 63 - 1 → pos x = msbidx x ∧ posViaIso x = msbidx x) ∧
  ∀ x : Word, 2 ^ 63 ≤ x.toNat → pos x = 63 ∧ posViaIso x = 0

/-- R67: the relation between the two operations. -/
def Obligations.IsoPosRelation : Prop :=
  (∀ x : Word, 1 ≤ x.toNat → x.toNat ≤ 2 ^ 63 - 1 → (iso x).toNat = 2 ^ pos x) ∧
  (iso 0#64 = 0#64 ∧ pos 0#64 = 0) ∧
  ∀ x : Word, 2 ^ 63 ≤ x.toNat → iso x = 0#64 ∧ pos x = 63

/-- R68: POSITION of ISOLATE's result, and of a single bit. -/
def Obligations.PosOfIso : Prop :=
  (∀ x : Word, x.toNat ≤ 2 ^ 63 - 1 → pos (iso x) = pos x) ∧
  (∀ x : Word, 2 ^ 63 ≤ x.toNat → pos (iso x) = 0 ∧ pos x = 63) ∧
  ∀ p, p ≤ 63 → pos (BitVec.ofNat 64 (2 ^ p)) = p

/-- R44, R45: what each bit of a response is, from the request word alone. -/
def Obligations.ResponseFormat : Prop :=
  ∀ (w : ReqWord) (x : Word), (∀ i, i < 64 → x.getLsbD i = w.getLsbD i) →
    (w.getLsbD 64 = false → result w = iso x) ∧
    (w.getLsbD 64 = true → (result w).toNat = pos x ∧ ∀ i, 6 ≤ i → (result w).getLsbD i = false)

/-! ## The instructions -/

/-- R54, R59, R22: ISOLATE completes on every operand whenever a request is pending: the oldest pending request is answered with the
value of R54's pseudocode and R59's table; the log gains that entry alone, its requester is handed the value
(for its oldest request in flight: entry 4), and nothing else changes. -/
def Obligations.IsolateCompletes : Prop :=
  ∀ (x : Word) (s : State) (p : Pending) (rest : List Pending), s.pending = p :: rest →
    ∃ t v, exec (.msbIso x) s = .next t ∧
      v = (smear x + 1#64) >>> 1 ∧
      (x.toNat = 0 → v = 0#64) ∧
      (1 ≤ x.toNat → x.toNat ≤ 2 ^ 63 - 1 → v.toNat = 2 ^ msbidx x) ∧
      (2 ^ 63 ≤ x.toNat → v = 0#64) ∧
      t.log = s.log ++ [⟨p.requester, p.req, v⟩] ∧ t.pending = rest ∧ t.agenda = s.agenda ∧ HandedTo s t p.requester v

/-- R61, R62, R63, R64, R22: POSITION completes on every operand whenever a request is pending, with the value of R61's loop; the frame is
that of ISOLATE (entry 4). -/
def Obligations.PositionCompletes : Prop :=
  ∀ (x : Word) (s : State) (p : Pending) (rest : List Pending), s.pending = p :: rest →
    ∃ t v, exec (.msbPos x) s = .next t ∧
      v = zext64 (posLoop 64 (smear x) 0) ∧
      (x.toNat = 0 → v = 0#64) ∧
      (1 ≤ x.toNat → v.toNat = msbidx x) ∧
      (2 ^ 63 ≤ x.toNat → v = 63#64) ∧
      t.log = s.log ++ [⟨p.requester, p.req, v⟩] ∧ t.pending = rest ∧ t.agenda = s.agenda ∧ HandedTo s t p.requester v

/-- R22 enables Respond only when `pending` is non-empty; that the meaning then refuses by name is the model's choice (entry 6). -/
def Obligations.NoAnswerWithNothingPending : Prop :=
  ∀ (i : Instr) (s : State), s.pending = [] → exec i s = .refused .noRequestPending

/-- R13, R31, R34, R77: the response depends on the request alone: in any two states, for any two requesters, the same request gets the
same response, `result(req)`. -/
def Obligations.ResponseDependsOnRequestAlone : Prop :=
  ∀ (s s' : State) (p p' : Pending) (rest rest' : List Pending) (ev ev' : List Event),
    s.pending = p :: rest → s'.pending = p' :: rest' → p.req = p'.req →
    s.agenda = .respond :: ev → s'.agenda = .respond :: ev' →
    ∃ t t' v, step s = .next t ∧ step s' = .next t' ∧ v = result p.req ∧
      t.log = s.log ++ [⟨p.requester, p.req, v⟩] ∧ t'.log = s'.log ++ [⟨p'.requester, p'.req, v⟩]

/-! ## One step -/

/-- R22, R45: when the block moves, a step runs the instruction that the oldest pending request decodes to. That the block moves when no
outside move is to come is the model's choice (entry 2). -/
def Obligations.StepRunsDecodedRequest : Prop :=
  ∀ (s : State) (p : Pending) (rest : List Pending), s.pending = p :: rest →
    (s.agenda = [] → step s = exec (decode p.req) s) ∧
    ∀ ev, s.agenda = .respond :: ev → step s = exec (decode p.req) (s.withAgenda ev)

/-- The word the host places is the instruction the very next step runs, with the rest of the state as it was (entries 11, 16). -/
def Obligations.FetchWordRunsNext : Prop :=
  ∀ (s : State) (nbits w : Nat) (i : Instr), decodeTableWord nbits w = some i →
    step (s.withFetchWord nbits w) =
      exec i { s with pending := ⟨s.requesters.length, BitVec.ofNat 65 w⟩ :: s.pending }

/-- R22, Accept: the request goes to the end of `pending`; the log, the other requesters and the rest of the requester are as before. The
agenda is entry 1, the requester's notes are entry 4. -/
def Obligations.AcceptAppendsRequest : Prop :=
  ∀ (s : State) (r : Nat) (ev : List Event) (q : Requester) (n : Numbered) (rest : List Numbered) (w : WireWord),
    s.agenda = .accept r :: ev → s.requesters[r]? = some q → q.toIssue = n :: rest →
    presentItem q.received n.item = some w → (∀ i, i < 65 → w.driven.getLsbD i = true) →
    ∃ t, step s = .next t ∧ t.pending = s.pending ++ [⟨r, w.bits⟩] ∧ t.log = s.log ∧ t.agenda = ev ∧
      t.requesters.length = s.requesters.length ∧ (∀ r', r' ≠ r → t.requesters[r']? = s.requesters[r']?) ∧
      t.requesters[r]? = some { q with toIssue := rest, inFlight := q.inFlight ++ [⟨n.number, w.bits⟩] }

/-- R38, R48: the line `msb.iso x` or `msb.pos x` with a literal is issued as the request word `{op, x}`. -/
def Obligations.LiteralLineIsIssued : Prop :=
  ∀ (s : State) (r : Nat) (ev : List Event) (q : Requester) (number : Nat) (op : Op) (x : Word) (rest : List Numbered),
    s.agenda = .accept r :: ev → s.requesters[r]? = some q → q.toIssue = ⟨number, .line ⟨op, .lit x⟩⟩ :: rest →
    ∃ t, step s = .next t ∧ t.pending = s.pending ++ [⟨r, encode (op.instr x)⟩]

/-- R49, R86: a requester whose next operand is `$k` issues the request with response k as its operand once it has it, and until then holds. That
a holding requester's turn passes without effect is the model's choice (entry 3). -/
def Obligations.ReferenceWaitsForItsResponse : Prop :=
  ∀ (s : State) (r : Nat) (ev : List Event) (q : Requester) (number k : Nat) (op : Op) (rest : List Numbered),
    s.agenda = .accept r :: ev → s.requesters[r]? = some q → q.ordered →
    q.toIssue = ⟨number, .line ⟨op, .ref k⟩⟩ :: rest →
    ((∀ e ∈ q.received, e.number ≠ k) → step s = .next (s.withAgenda ev)) ∧
    ∀ e ∈ q.received, e.number = k →
      ∃ t, step s = .next t ∧ t.pending = s.pending ++ [⟨r, encode (op.instr e.rsp)⟩]

/-- R70, D25: a next request with an undefined bit is refused, and no state follows. -/
def Obligations.UndefinedRequestIsRefused : Prop :=
  ∀ (s : State) (r : Nat) (ev : List Event) (w : WireWord) (i : Nat),
    s.agenda = .accept r :: ev → s.offer r = some w → i < 65 → w.driven.getLsbD i = false →
    step s = .refused (.undefinedRequest r)

/-- R42, R69, R70: nothing else stops the machine: a step that gives no next state met a next request with an undefined bit. -/
def Obligations.OnlyUndefinedRequestsStop : Prop :=
  ∀ s : State, (∃ t, step s = .next t) ∨
    ∃ r ev w, s.agenda = .accept r :: ev ∧ s.offer r = some w ∧ w.driven ≠ BitVec.allOnes 65 ∧
      step s = .refused (.undefinedRequest r)

/-- R82, R24: reset empties `pending`, adds nothing to `log` and takes nothing from it. What each requester makes of its dropped requests is
the model's reading (entry 4). -/
def Obligations.ResetDropsPending : Prop :=
  ∀ (s : State) (ev : List Event), s.agenda = .reset :: ev →
    ∃ t, step s = .next t ∧ t.pending = [] ∧ t.log = s.log ∧ t.agenda = ev ∧ t.requesters.length = s.requesters.length ∧
      ∀ (r : Nat) (q : Requester), s.requesters[r]? = some q →
        ∃ q' : Requester, t.requesters[r]? = some q' ∧ q'.received = q.received ∧ q'.reissues = q.reissues ∧ q'.inFlight = [] ∧
          (q.reissues = false → q'.toIssue = q.toIssue ∧ q'.dropped = q.dropped ++ q.inFlight) ∧
          (q.reissues = true → q'.dropped = q.dropped ∧
            q'.toIssue = (q.inFlight.map fun n => ⟨n.number, .wire ⟨n.req, BitVec.allOnes 65⟩⟩) ++ q.toIssue)

/-- R83: a request can be accepted at once after a reset, and gets there alone. -/
def Obligations.AcceptRightAfterReset : Prop :=
  ∀ (s : State) (r : Nat) (ev : List Event) (w : WireWord), s.agenda = .reset :: .accept r :: ev →
    s.resetBlock.offer r = some w → w.driven = BitVec.allOnes 65 →
    ∃ t, Sys2Proof.core.run 2 s = .next t ∧ t.pending = [⟨r, w.bits⟩] ∧ t.log = s.log

/-- R81: a request that is presented and answered after a reset gets `result(req)`, as before it. -/
def Obligations.ResponseAfterResetIsTheSame : Prop :=
  ∀ (s : State) (r : Nat) (ev : List Event) (w : WireWord), s.agenda = .reset :: .accept r :: .respond :: ev →
    s.resetBlock.offer r = some w → w.driven = BitVec.allOnes 65 →
    ∃ t, Sys2Proof.core.run 3 s = .next t ∧ t.log = s.log ++ [⟨r, w.bits, result w.bits⟩] ∧ t.pending = [] ∧ t.agenda = ev

/-- With nothing pending and no outside move to come, a step changes nothing: the model's choice (entry 2; R22 gives the block no step, R80
no wait state). -/
def Obligations.IdleStepChangesNothing : Prop :=
  ∀ s : State, s.pending = [] → (s.agenda = [] → step s = .next s) ∧ ∀ ev, s.agenda = .respond :: ev → step s = .next (s.withAgenda ev)

/-! ## Invariants -/

/-- The state after reset: `pending` and `log` empty (R24; the empty `log`, `requesters` and `agenda` are entry 10), and it meets every
invariant below. -/
def Obligations.ResetMeetsInvariants : Prop :=
  State.reset.pending = [] ∧ State.reset.log = [] ∧ LogSound State.reset ∧ FlightMatches State.reset ∧ DeliveryMatches State.reset ∧
    ProgramOrder State.reset ∧ AllDefined State.reset

/-- R34, R45, R69: every answer in the log is `result(req)` of its own request, and every step keeps it so. -/
def Obligations.StepKeepsLogSound : Prop :=
  ∀ s t : State, LogSound s → step s = .next t → LogSound t

/-- R22, R34, R78: each requester has received exactly the block's answers to it, in their order, and has in flight exactly its pending
requests, in their order; every step keeps it so (the requesters' notes are entry 4). -/
def Obligations.StepKeepsDeliveryInOrder : Prop :=
  ∀ s t : State, FlightMatches s → DeliveryMatches s → step s = .next t → FlightMatches t ∧ DeliveryMatches t

/-- R21, R34, R49, R78: a requester's responses, requests in flight and requests to issue stand in program order, apart from those dropped
for good; every step keeps it so (the numbering is entry 4). -/
def Obligations.StepKeepsProgramOrder : Prop :=
  ∀ s t : State, ProgramOrder s → step s = .next t → ProgramOrder t

/-- R84: a requester whose requests are all fully defined keeps them so; with this the machine never stops. -/
def Obligations.StepKeepsAllDefined : Prop :=
  ∀ s : State, AllDefined s → ∃ t, step s = .next t ∧ AllDefined t

/-! ## Runs -/

/-- R21, R82: over any run, resets or not, the log only grows: an answer given stays. -/
def Obligations.LogOnlyGrows : Prop :=
  ∀ (k : Nat) (s t : State), Sys2Proof.core.run k s = .next t → s.log <+: t.log

/-- R22, R34: over any run without reset, the requests answered and pending, in order, are those of before followed by those accepted since:
the block answers in acceptance order, each request once, and none is lost. -/
def Obligations.AnswersInAcceptanceOrder : Prop :=
  ∀ (k : Nat) (s t : State), NoReset s → Sys2Proof.core.run k s = .next t →
    ∃ accepted, t.history = s.history ++ accepted ∧ s.log.length ≤ t.log.length

/-- R34 point 2: over any run without reset, the k-th response that a requester receives answers its k-th request: it stands under the number
k, counting from 1, and is `result` of the word under which request k was accepted. The premise is the invariant of
StepKeepsDeliveryInOrder that what a requester has in flight is what the block holds. That a requester numbers a response by its oldest
request in flight is the model's reading (entry 4), and the agenda is entry 1. -/
def Obligations.KthResponseAnswersKthRequest : Prop :=
  ∀ (n : Nat) (s t : State) (r : Nat) (items : List Item) (reissues : Bool), NoReset s → FlightMatches s →
    s.requesters[r]? = some (Requester.start items reissues) → Sys2Proof.core.run n s = .next t →
    ∃ q : Requester, t.requesters[r]? = some q ∧
      ∀ (i : Nat) (e : Received), q.received[i]? = some e →
        e.number = i + 1 ∧ ∃ w, AcceptedAs s n r (i + 1) w ∧ e.rsp = result w

/-- R22's fairness, for the model's agenda (entry 2): with all requests defined, the machine comes to have nothing pending, within a
number of steps the state gives; without reset, every request that was pending has then been answered, next in the log. -/
def Obligations.PendingRequestsAreAnswered : Prop :=
  ∀ s : State, AllDefined s →
    ∃ t, Sys2Proof.core.run (2 * s.agenda.length + s.pending.length) s = .next t ∧ t.pending = [] ∧ t.agenda = [] ∧
      (NoReset s → ∃ more, t.log = s.log ++ s.pending.map Pending.answered ++ more)

/-- R21, R22, R82: every step is one of the spec's block steps, or leaves the block as it was; so every run is a block run. -/
def Obligations.RunsAreBlockRuns : Prop :=
  (∀ s t : State, step s = .next t → t.block = s.block ∨ BlockStep s.block t.block) ∧
  ∀ (k : Nat) (s t : State), Sys2Proof.core.run k s = .next t → BlockRun s.block t.block

/-- R22, R78, R82: and every run of the spec's block steps, in any order of accepts, answers and resets, is a run of the model from some
state with no undefined request. -/
def Obligations.EveryBlockRunIsAdmitted : Prop :=
  ∀ b c : Block, BlockRun b c →
    ∃ (s t : State) (k : Nat), s.block = b ∧ AllDefined s ∧ Sys2Proof.core.run k s = .next t ∧ t.block = c

/-- R78: two requesters that issue at once are accepted in either order. -/
def Obligations.EitherAcceptOrder : Prop :=
  ∀ (s : State) (r₁ r₂ : Nat) (w₁ w₂ : WireWord), r₁ ≠ r₂ → s.offer r₁ = some w₁ → s.offer r₂ = some w₂ →
    w₁.driven = BitVec.allOnes 65 → w₂.driven = BitVec.allOnes 65 →
    (∃ t, Sys2Proof.core.run 2 (s.withAgenda [.accept r₁, .accept r₂]) = .next t ∧
      t.pending = s.pending ++ [⟨r₁, w₁.bits⟩, ⟨r₂, w₂.bits⟩]) ∧
    ∃ t, Sys2Proof.core.run 2 (s.withAgenda [.accept r₂, .accept r₁]) = .next t ∧
      t.pending = s.pending ++ [⟨r₂, w₂.bits⟩, ⟨r₁, w₁.bits⟩]

/-- R22, R23, R82: a run that has ended stays ended, whatever moves come, and the block changes no more: with nothing pending R22 enables no
Respond, with nothing to issue no Accept comes, and R82's Reset has nothing to drop. That a move which is not enabled gives a next state with
no effect is the model's choice (entries 2, 3), and the end of a run is read off the requesters' lists as entry 4 says. -/
def Obligations.EndedRunStaysEnded : Prop :=
  ∀ s : State, runEnded s = true → ∃ t, step s = .next t ∧ runEnded t = true ∧ t.block = s.block

/-- R23, R49, R82: a request that a reset dropped and that its requester does not issue again is never answered: no later state has a response
under its number, and the run never ends. -/
def Obligations.DroppedRequestNeverAnswered : Prop :=
  ∀ (k : Nat) (s t : State) (r : Nat) (q : Requester) (d : Sent), ProgramOrder s → s.requesters[r]? = some q → d ∈ q.dropped →
    Sys2Proof.core.run k s = .next t →
    ∃ q', t.requesters[r]? = some q' ∧ d ∈ q'.dropped ∧ responseTo q'.received d.number = none ∧ runEnded t = false

/-! ## The assembler -/

/-- R48, R49: what the assembler accepts is a program whose references are all to earlier requests. -/
def Obligations.AssembledProgramsAreWellFormed : Prop :=
  ∀ (src : List (List Char)) (program : List Line), assemble src = .ok program → programWellFormed 1 program = true

/-- R48, R49: every line that is well-formed as request number n has a source text, which assembles to it. The text parts mnemonic and operand by
a space and writes hex digits in lower case, where R47's and R48's own examples have upper case: that the assembler takes such a text is
the model's choice (entry 15). -/
def Obligations.EveryLineHasSourceText : Prop :=
  ∀ (number : Nat) (l : Line), l.wellFormed number = true → assembleLine number (lineText l) = .ok (some l)

/-- The verdicts of 95_test_vectors.md section 2.6. -/
def Obligations.AssemblerVerdicts : Prop :=
  assembleLine 1 "msb.iso 203".toList = .ok (some ⟨.isolate, .lit 203#64⟩) ∧
  assembleLine 1 "msb.pos 0x1BF9_F56C".toList = .ok (some ⟨.position, .lit 0x1BF9F56C#64⟩) ∧
  assembleLine 1 "msb.iso 18446744073709551615".toList = .ok (some ⟨.isolate, .lit 0xFFFFFFFFFFFFFFFF#64⟩) ∧
  assembleLine 1 "msb.iso 18446744073709551616".toList = .error .literalOutOfRange ∧
  assembleLine 1 "msb.iso 0x1_0000_0000_0000_0000".toList = .error .literalOutOfRange ∧
  assembleLine 1 "msb.pos -1".toList = .error .negativeLiteral ∧
  assembleLine 1 "msb.iso $0".toList = .error .badReference ∧
  assembleLine 1 "msb.iso $1".toList = .error .badReference ∧
  assembleLine 1 "msb.clz 5".toList = .error .unknownMnemonic ∧
  assembleLine 1 "MSB.ISO 5".toList = .error .unknownMnemonic
end

