-- ==== Sys2Proof/Laws/Datapath.lean ====
section
/-! SUPPORT. The datapath's definitions, unfolded once. -/

namespace Sys2Proof.Machine

theorem getLsbD_smearStep (s : Word) (n i : Nat) :
    (smearStep s n).getLsbD i = (s.getLsbD i || s.getLsbD (n + i)) := by
  simp [smearStep, BitVec.getLsbD_ushiftRight]

theorem smearBy_cons (n : Nat) (l : List Nat) (x : Word) : smearBy (n :: l) x = smearBy l (smearStep x n) := rfl

@[simp] theorem smearBy_nil (x : Word) : smearBy [] x = x := rfl

theorem iso_eq (x : Word) : iso x = (smear x + 1#64) >>> 1 := by
  simp [iso, isoWith, Config.topBitCorrected]

theorem posLoop_stop (fuel : Nat) (v : Word) (count : Nat) (h : ¬ 1#64 < v) : posLoop fuel v count = count := by
  cases fuel <;> simp [posLoop, h]

theorem posLoop_go (fuel : Nat) (v : Word) (count : Nat) (h : 1#64 < v) :
    posLoop (fuel + 1) v count = posLoop fuel (v >>> 1) (count + 1) := by
  simp [posLoop, h]

end Sys2Proof.Machine
end

