-- ==== Sys2Proof/Laws/State.lean ====
section
/-! SUPPORT. What each named update leaves in each field, so that no later proof unfolds a record update. -/

namespace Sys2Proof.Machine

@[simp] theorem withAgenda_pending (s : State) (a : List Event) : (s.withAgenda a).pending = s.pending := rfl
@[simp] theorem withAgenda_log (s : State) (a : List Event) : (s.withAgenda a).log = s.log := rfl
@[simp] theorem withAgenda_requesters (s : State) (a : List Event) : (s.withAgenda a).requesters = s.requesters := rfl
@[simp] theorem withAgenda_agenda (s : State) (a : List Event) : (s.withAgenda a).agenda = a := rfl
@[simp] theorem withAgenda_offer (s : State) (a : List Event) (r : Nat) : (s.withAgenda a).offer r = s.offer r := rfl
@[simp] theorem withAgenda_self (s : State) : s.withAgenda s.agenda = s := rfl

@[simp] theorem enqueue_pending (s : State) (r : Nat) (w : ReqWord) :
    (s.enqueue r w).pending = s.pending ++ [⟨r, w⟩] := rfl
@[simp] theorem enqueue_log (s : State) (r : Nat) (w : ReqWord) : (s.enqueue r w).log = s.log := rfl
@[simp] theorem enqueue_requesters (s : State) (r : Nat) (w : ReqWord) :
    (s.enqueue r w).requesters = s.requesters.modify r (Requester.sent w) := rfl
@[simp] theorem enqueue_agenda (s : State) (r : Nat) (w : ReqWord) : (s.enqueue r w).agenda = s.agenda := rfl

@[simp] theorem answer_pending (s : State) (p : Pending) (rest : List Pending) (v : Word) :
    (s.answer p rest v).pending = rest := rfl
@[simp] theorem answer_log (s : State) (p : Pending) (rest : List Pending) (v : Word) :
    (s.answer p rest v).log = s.log ++ [⟨p.requester, p.req, v⟩] := rfl
@[simp] theorem answer_requesters (s : State) (p : Pending) (rest : List Pending) (v : Word) :
    (s.answer p rest v).requesters = s.requesters.modify p.requester (Requester.receive v) := rfl
@[simp] theorem answer_agenda (s : State) (p : Pending) (rest : List Pending) (v : Word) :
    (s.answer p rest v).agenda = s.agenda := rfl

@[simp] theorem resetBlock_pending (s : State) : s.resetBlock.pending = [] := rfl
@[simp] theorem resetBlock_log (s : State) : s.resetBlock.log = s.log := rfl
@[simp] theorem resetBlock_requesters (s : State) :
    s.resetBlock.requesters = s.requesters.map Requester.afterReset := rfl
@[simp] theorem resetBlock_agenda (s : State) : s.resetBlock.agenda = s.agenda := rfl

@[simp] theorem place_pending (s : State) (w : ReqWord) :
    (s.place w).pending = ⟨s.requesters.length, w⟩ :: s.pending := rfl
@[simp] theorem place_log (s : State) (w : ReqWord) : (s.place w).log = s.log := rfl
@[simp] theorem place_requesters (s : State) (w : ReqWord) : (s.place w).requesters = s.requesters := rfl
@[simp] theorem place_agenda (s : State) (w : ReqWord) : (s.place w).agenda = blockFirst s.agenda := rfl

@[simp] theorem load_pending (s : State) (is : List Item) (b : Bool) : (s.load is b).pending = s.pending := rfl
@[simp] theorem load_log (s : State) (is : List Item) (b : Bool) : (s.load is b).log = s.log := rfl
@[simp] theorem load_requesters (s : State) (is : List Item) (b : Bool) :
    (s.load is b).requesters = s.requesters ++ [Requester.start is b] := rfl
@[simp] theorem load_agenda (s : State) (is : List Item) (b : Bool) : (s.load is b).agenda = s.agenda := rfl

theorem sent_nil (w : ReqWord) (q : Requester) (h : q.toIssue = []) : q.sent w = q := by
  simp [Requester.sent, h]
theorem sent_cons (w : ReqWord) (q : Requester) (n : Numbered) (rest : List Numbered) (h : q.toIssue = n :: rest) :
    q.sent w = { q with toIssue := rest, inFlight := q.inFlight ++ [⟨n.number, w⟩] } := by
  simp [Requester.sent, h]
@[simp] theorem sent_received (w : ReqWord) (q : Requester) : (q.sent w).received = q.received := by
  unfold Requester.sent; split <;> rfl
@[simp] theorem sent_dropped (w : ReqWord) (q : Requester) : (q.sent w).dropped = q.dropped := by
  unfold Requester.sent; split <;> rfl
@[simp] theorem sent_reissues (w : ReqWord) (q : Requester) : (q.sent w).reissues = q.reissues := by
  unfold Requester.sent; split <;> rfl

theorem receive_nil (v : Word) (q : Requester) (h : q.inFlight = []) : q.receive v = q := by
  simp [Requester.receive, h]
theorem receive_cons (v : Word) (q : Requester) (n : Sent) (rest : List Sent) (h : q.inFlight = n :: rest) :
    q.receive v = { q with inFlight := rest, received := q.received ++ [⟨n.number, v⟩] } := by
  simp [Requester.receive, h]
@[simp] theorem receive_toIssue (v : Word) (q : Requester) : (q.receive v).toIssue = q.toIssue := by
  unfold Requester.receive; split <;> rfl
@[simp] theorem receive_dropped (v : Word) (q : Requester) : (q.receive v).dropped = q.dropped := by
  unfold Requester.receive; split <;> rfl
@[simp] theorem receive_reissues (v : Word) (q : Requester) : (q.receive v).reissues = q.reissues := by
  unfold Requester.receive; split <;> rfl

theorem afterReset_again (q : Requester) (h : q.reissues = true) :
    q.afterReset = { q with toIssue := q.inFlight.map Sent.again ++ q.toIssue, inFlight := [] } := by
  simp [Requester.afterReset, h]
theorem afterReset_dropping (q : Requester) (h : q.reissues = false) :
    q.afterReset = { q with dropped := q.dropped ++ q.inFlight, inFlight := [] } := by
  simp [Requester.afterReset, h]
@[simp] theorem afterReset_inFlight (q : Requester) : q.afterReset.inFlight = [] := by
  unfold Requester.afterReset; split <;> rfl
@[simp] theorem afterReset_received (q : Requester) : q.afterReset.received = q.received := by
  unfold Requester.afterReset; split <;> rfl
@[simp] theorem afterReset_reissues (q : Requester) : q.afterReset.reissues = q.reissues := by
  unfold Requester.afterReset; split <;> rfl

end Sys2Proof.Machine
end

