-- ==== Sys2Proof/Laws/Ops.lean ====
section
/-! SUPPORT. For each shared operation, once, everything it can do; and the inversion lemma of `step`. -/

namespace Sys2Proof.Machine

theorem respond_next (v : Word) (s t : State) (h : respond v s = .next t) :
    ∃ p rest, s.pending = p :: rest ∧ t = s.answer p rest v := by
  unfold respond at h
  split at h
  · cases h
  · rename_i p rest hp
    exact ⟨p, rest, hp, by cases h; rfl⟩

theorem respond_cons (v : Word) (s : State) (p : Pending) (rest : List Pending) (h : s.pending = p :: rest) :
    respond v s = .next (s.answer p rest v) := by
  simp [respond, h]

theorem respond_nil (v : Word) (s : State) (h : s.pending = []) : respond v s = .refused .noRequestPending := by
  simp [respond, h]

/-- Running the decoded request is answering with its result (R45). -/
theorem exec_decode (w : ReqWord) (s : State) : exec (decode w) s = respond (result w) s := by
  unfold result
  cases decode w <;> rfl

theorem accept_next (r : Nat) (s t : State) (h : accept r s = .next t) :
    (s.offer r = none ∧ t = s) ∨ ∃ w, s.offer r = some w ∧ w.defined = true ∧ t = s.enqueue r w.bits := by
  unfold accept at h
  split at h
  · rename_i ho
    exact .inl ⟨ho, by cases h; rfl⟩
  · rename_i w ho
    split at h
    · rename_i hd
      exact .inr ⟨w, ho, hd, by cases h; rfl⟩
    · cases h

theorem serve_nil (s : State) (h : s.pending = []) : serve s = .next s := by
  simp [serve, fetch, h]

theorem serve_cons (s : State) (p : Pending) (rest : List Pending) (h : s.pending = p :: rest) :
    serve s = .next (s.answer p rest (result p.req)) := by
  simp [serve, fetch, h, exec_decode, respond_cons _ _ _ _ h]

theorem serve_next (s t : State) (h : serve s = .next t) :
    (s.pending = [] ∧ t = s) ∨ ∃ p rest, s.pending = p :: rest ∧ t = s.answer p rest (result p.req) := by
  cases hp : s.pending with
  | nil => exact .inl ⟨rfl, by rw [serve_nil s hp] at h; cases h; rfl⟩
  | cons p rest => exact .inr ⟨p, rest, rfl, by rw [serve_cons s p rest hp] at h; cases h; rfl⟩

/-- Whose move an agenda is: the block's. -/
def blockMoves (s : State) : Prop := s.agenda = [] ∨ ∃ rest, s.agenda = .respond :: rest

/-- Everything a step can do: nothing but pass a move by; Accept; Respond; Reset. -/
theorem step_cases (s t : State) (h : step s = .next t) :
    (t = s.withAgenda s.agenda.tail ∧
      ((blockMoves s ∧ s.pending = []) ∨ ∃ r rest, s.agenda = .accept r :: rest ∧ s.offer r = none)) ∨
    (∃ r rest w, s.agenda = .accept r :: rest ∧ s.offer r = some w ∧ w.defined = true ∧
      t = (s.withAgenda rest).enqueue r w.bits) ∨
    (blockMoves s ∧ ∃ p ps, s.pending = p :: ps ∧ t = (s.withAgenda s.agenda.tail).answer p ps (result p.req)) ∨
    (∃ rest, s.agenda = .reset :: rest ∧ t = (s.withAgenda rest).resetBlock) := by
  unfold step at h
  split at h
  · rename_i ha
    have hs : s.withAgenda s.agenda.tail = s := by rw [ha, List.tail_nil, ← ha, withAgenda_self]
    rw [hs]
    rcases serve_next s t h with ⟨hp, rfl⟩ | ⟨p, ps, hp, rfl⟩
    · exact .inl ⟨rfl, .inl ⟨.inl ha, hp⟩⟩
    · exact .inr (.inr (.inl ⟨.inl ha, p, ps, hp, rfl⟩))
  · rename_i r rest ha
    rcases accept_next r _ t h with ⟨ho, rfl⟩ | ⟨w, ho, hd, rfl⟩
    · exact .inl ⟨by rw [ha, List.tail_cons], .inr ⟨r, rest, ha, ho⟩⟩
    · exact .inr (.inl ⟨r, rest, w, ha, ho, hd, rfl⟩)
  · rename_i rest ha
    have hb : blockMoves s := .inr ⟨rest, ha⟩
    rw [ha, List.tail_cons]
    rcases serve_next _ t h with ⟨hp, rfl⟩ | ⟨p, ps, hp, rfl⟩
    · exact .inl ⟨rfl, .inl ⟨hb, hp⟩⟩
    · exact .inr (.inr (.inl ⟨hb, p, ps, hp, rfl⟩))
  · rename_i rest ha
    exact .inr (.inr (.inr ⟨rest, ha, by cases h; rfl⟩))

end Sys2Proof.Machine
end

