-- ==== Sys2Proof/Laws/PerInstr.lean ====
section
/-! SUPPORT. Facts about every instruction, one lemma a constructor. -/

namespace Sys2Proof.Laws

/-- The two fields of an instruction's request word are its operation and its operand (R38, R41). -/
def RequestFields.Statement (i : Instr) : Prop :=
  opField (encode i) = (i.op == .position) ∧ operandField (encode i) = i.operand

/-- Each bit of `{op, x}`. -/
theorem getLsbD_fields (b : BitVec 1) (x : Word) (i : Nat) :
    BitVec.getLsbD (w := 65) (b ++ x) i = if i < 64 then x.getLsbD i else b.getLsbD (i - 64) :=
  BitVec.getLsbD_append (x := b) (y := x)

theorem operandField_fields (b : BitVec 1) (x : Word) : operandField (b ++ x) = x := by
  apply BitVec.eq_of_getLsbD_eq
  intro i hi
  rw [operandField, BitVec.getLsbD_extractLsb', Nat.zero_add, getLsbD_fields]
  simp [hi]

theorem opField_fields (b : BitVec 1) (x : Word) : opField (b ++ x) = b.getLsbD 0 := by
  rw [opField, getLsbD_fields]
  simp

theorem RequestFields.msbIso (x : Word) : RequestFields.Statement (.msbIso x) :=
  ⟨opField_fields 0#1 x, operandField_fields 0#1 x⟩

theorem RequestFields.msbPos (x : Word) : RequestFields.Statement (.msbPos x) :=
  ⟨opField_fields 1#1 x, operandField_fields 1#1 x⟩

end Sys2Proof.Laws
end

