-- ==== Sys2Proof/Laws/Run.lean ====
section
/-! SUPPORT. Runs, one step at a time; and what the requesters' list, an offer and a fully defined word are. -/

namespace Sys2Proof.Machine

theorem run_zero (s t : State) (h : Sys2Proof.core.run 0 s = .next t) : s = t := by
  cases h
  rfl

theorem coreRun_next (M : Host.Core) (k : Nat) (s m : M.State) (h : M.step s = .next m) :
    M.run (k + 1) s = M.run k m := by
  simp only [Host.Core.run, h]

theorem coreRun_succ (M : Host.Core) (k : Nat) (s t : M.State) (h : M.run (k + 1) s = .next t) :
    ∃ m, M.step s = .next m ∧ M.run k m = .next t := by
  cases hs : M.step s with
  | next m => exact ⟨m, rfl, by rw [← coreRun_next M k s m hs]; exact h⟩
  | fault r =>
    simp only [Host.Core.run, hs] at h
    cases h
  | refused r =>
    simp only [Host.Core.run, hs] at h
    cases h

/-- A run's last step. -/
theorem coreRun_snoc (M : Host.Core) (k : Nat) (s t : M.State) (h : M.run (k + 1) s = .next t) :
    ∃ m, M.run k s = .next m ∧ M.step m = .next t := by
  induction k generalizing s with
  | zero =>
    obtain ⟨m, hm, h0⟩ := coreRun_succ M 0 s t h
    cases h0
    exact ⟨s, rfl, hm⟩
  | succ k ih =>
    obtain ⟨m, hm, hk⟩ := coreRun_succ M (k + 1) s t h
    obtain ⟨m', hm', ht⟩ := ih m hk
    exact ⟨m', by rw [coreRun_next M k s m hm]; exact hm', ht⟩

theorem run_snoc (k : Nat) (s t : State) (h : Sys2Proof.core.run (k + 1) s = .next t) :
    ∃ m : State, Sys2Proof.core.run k s = .next m ∧ step m = .next t := coreRun_snoc Sys2Proof.core k s t h

/-- What was accepted in the first `n` steps was accepted in the first `n + 1`. -/
theorem acceptedAs_succ (s : State) (n r k : Nat) (w : ReqWord) (h : AcceptedAs s n r k w) : AcceptedAs s (n + 1) r k w := by
  obtain ⟨j, m, ev, q, item, rest, p, hj, h⟩ := h
  exact ⟨j, m, ev, q, item, rest, p, Nat.lt_succ_of_lt hj, h⟩

theorem run_step (k : Nat) (s m : State) (h : step s = .next m) :
    Sys2Proof.core.run (k + 1) s = Sys2Proof.core.run k m := coreRun_next Sys2Proof.core k s m h

theorem run_succ (k : Nat) (s t : State) (h : Sys2Proof.core.run (k + 1) s = .next t) :
    ∃ m : State, step s = .next m ∧ Sys2Proof.core.run k m = .next t := coreRun_succ Sys2Proof.core k s t h

theorem defined_iff (w : WireWord) : w.defined = true ↔ w.driven = BitVec.allOnes 65 := beq_iff_eq

theorem defined_iff_bits (w : WireWord) : w.defined = true ↔ ∀ i, i < 65 → w.driven.getLsbD i = true := by
  rw [defined_iff]
  constructor
  · intro h i hi
    rw [h, BitVec.getLsbD_allOnes]
    exact decide_eq_true hi
  · intro h
    apply BitVec.eq_of_getLsbD_eq
    intro i hi
    rw [h i hi, BitVec.getLsbD_allOnes]
    exact (decide_eq_true hi).symm

theorem ofWord_defined (w : ReqWord) : (WireWord.ofWord w).defined = true := (defined_iff _).2 rfl

/-- An offer is the presentation of a listed requester's next item. -/
theorem offer_some (s : State) (r : Nat) (w : WireWord) (h : s.offer r = some w) :
    ∃ q n rest, s.requesters[r]? = some q ∧ q.toIssue = n :: rest ∧ presentItem q.received n.item = some w := by
  unfold State.offer at h
  cases hq : s.requesters[r]? with
  | none => simp [hq] at h
  | some q =>
    rw [hq, Option.bind_some] at h
    unfold Requester.offer at h
    split at h
    · cases h
    · rename_i n rest hi
      exact ⟨q, n, rest, rfl, hi, h⟩

/-- A requester after an update of requester `i` is that one updated or another as it was. -/
theorem getElem?_modify_some (l : List Requester) (f : Requester → Requester) (i r : Nat) (q : Requester)
    (h : (l.modify i f)[r]? = some q) :
    (i = r ∧ ∃ q₀, l[r]? = some q₀ ∧ q = f q₀) ∨ (i ≠ r ∧ l[r]? = some q) := by
  rw [List.getElem?_modify] at h
  by_cases e : i = r
  · simp only [e, if_true] at h
    obtain ⟨a, ha, rfl⟩ := Option.map_eq_some_iff.1 h
    exact .inl ⟨e, a, ha, rfl⟩
  · simp only [e, if_false] at h
    exact .inr ⟨e, by simpa using h⟩

end Sys2Proof.Machine
end

