-- ==== Sys2Proof/Tests/Slice0.lean ====
section
/-! SUPPORT. The model's own tests. Expected values are those of 95_test_vectors.md (the source's scenarios S1 to S13 and the vectors derived
from the rules); `test_witness_<Name>` shows that the hypotheses of `Obligations.<Name>` can be met, at the bounds of its clauses. -/

namespace Sys2Proof.Tests

open Sys2Proof.Machine

/-- Requester 0 has asked for 203 and holds `msb.pos $1` and `msb.iso 13`; the given moves are to come. -/
def waiting (req : ReqWord) (agenda : List Event) : State where
  pending := [⟨0, req⟩]
  log := []
  requesters := [⟨[⟨2, .line ⟨.position, .ref 1⟩⟩, ⟨3, .line ⟨.isolate, .lit 13#64⟩⟩], [⟨1, req⟩], [], [], false⟩]
  agenda := agenda

/-- Requester 0 has received 128 for its request 1 and has `msb.pos $1` to issue; requester 1 has `msb.pos 203`. -/
def idle (agenda : List Event) : State where
  pending := []
  log := [⟨0, 0xCB#65, 128#64⟩]
  requesters := [
    { toIssue := [⟨2, .line ⟨.position, .ref 1⟩⟩], inFlight := [], received := [⟨1, 128#64⟩], dropped := [], reissues := false },
    { toIssue := [⟨1, .line ⟨.position, .lit 203#64⟩⟩], inFlight := [], received := [], dropped := [], reissues := true }]
  agenda := agenda

/-- Requester 0's only request was dropped by a reset. -/
def dropped (agenda : List Event) : State where
  pending := []
  log := []
  requesters := [{ toIssue := [], inFlight := [], received := [], dropped := [⟨1, 0xCB#65⟩], reissues := false }]
  agenda := agenda

/-- Bit 7 of requester 0's next request is undefined. -/
def halfDriven (agenda : List Event) : State where
  pending := []
  log := []
  requesters := [{ toIssue := [⟨1, .wire ⟨0xCB#65, BitVec.allOnes 65 ^^^ 0x80#65⟩⟩], inFlight := [], received := [], dropped := [], reissues := false }]
  agenda := agenda

/-- The state a step gives, or none. -/
def after : Host.Outcome State Fault Refusal → Option State
  | .next t => some t
  | .fault _ => none
  | .refused _ => none

/-! ## Well-formedness: each check refuses an ill-formed term -/

theorem test_wf_reference_zero_refused : (Operand.ref 0).wellFormed 2 = false := by decide
theorem test_wf_reference_to_itself_refused : programWellFormed 1 [⟨.isolate, .lit 5#64⟩, ⟨.position, .ref 2⟩] = false := by decide
theorem test_wf_reference_backward_accepted : programWellFormed 1 [⟨.isolate, .lit 5#64⟩, ⟨.position, .ref 1⟩] = true := by decide
theorem test_wf_undriven_bit_refused : (WireWord.mk 0xCB#65 (BitVec.allOnes 65 ^^^ 1#65)).defined = false := by decide
theorem test_wf_undriven_item_refused : (Item.wire ⟨0#65, 0#65⟩).defined = false := by decide

/-! ## Decoding: words written out from R38, R41, R47 -/

theorem test_decode_msbIso_203 : decode 0b00000000000000000000000000000000000000000000000000000000011001011#65 = .msbIso 203#64 := by decide
theorem test_decode_msbPos_203 : decode 0b10000000000000000000000000000000000000000000000000000000011001011#65 = .msbPos 203#64 := by decide
/-- The operand's own top bit (bit 63) is not the op bit (bit 64): last row of section 2.5. -/
theorem test_decode_msbPos_top_bit : decode 0x18000000000000000#65 = .msbPos 0x8000000000000000#64 := by decide
theorem test_decode_msbIso_top_bit : decode 0x08000000000000000#65 = .msbIso 0x8000000000000000#64 := by decide
theorem test_encode_msbPos_203 : encode (.msbPos 203#64) = 0x100000000000000CB#65 := by decide
theorem test_decodeTableWord_66_bits_refused : decodeTableWord 72 (2 ^ 65) = none := by decide
theorem test_decodeTableWord_pos : decodeTableWord 72 (2 ^ 64 + 203) = some (.msbPos 203#64) := by decide

/-! ## The datapath and the two instructions -/

/-- The last row of section 2.1: two stages and the smeared value. -/
theorem test_smear_stages :
    smearBy [1] 0x0123456789ABCDEF#64 = 0x01B3E7F7CDFFEFFF#64 ∧ smearBy [1, 2] 0x0123456789ABCDEF#64 = 0x01FFFFFFFFFFFFFF#64 ∧
    smear 0x8000000000000000#64 = 0xFFFFFFFFFFFFFFFF#64 := by decide

/-- S3: ISOLATE of 469366124 is 2^28; the answer is logged and handed to the requester under its number. -/
theorem test_msbIso_step : (after (step (waiting 0x1BF9F56C#65 []))).map (fun t => (t.log, t.requesters.map Requester.received, t.pending)) =
    some ([⟨0, 0x1BF9F56C#65, 0x10000000#64⟩], [[⟨1, 0x10000000#64⟩]], []) := by decide
/-- S11: the boundary, 0 on this hardware. -/
theorem test_msbIso_top_bit : (after (exec (.msbIso 0x8000000000000000#64) (waiting 0x8000000000000000#65 []))).map (fun t => t.log.map Entry.rsp) =
    some [0#64] := by decide
/-- S6: POSITION of 469366124 is 28. -/
theorem test_msbPos_step : (after (step (waiting 0x1000000001BF9F56C#65 [.respond, .reset]))).map (fun t => (t.log, t.agenda)) =
    some ([⟨0, 0x1000000001BF9F56C#65, 28#64⟩], [.reset]) := by decide
/-- R64: POSITION of an arbitrary top-bit value is 63. -/
theorem test_msbPos_top_bit : (after (exec (.msbPos 0xDEADBEEFCAFEBABE#64) (waiting 0x1DEADBEEFCAFEBABE#65 []))).map (fun t => t.log.map Entry.rsp) =
    some [63#64] := by decide

/-! ## The outside moves -/

/-- P2, request 3: `msb.pos $1` carries response 1 as its operand. -/
theorem test_accept_reference : (after (step (idle [.accept 0]))).map State.pending = some [⟨0, 0x10000000000000080#65⟩] := by decide
/-- R86: the same request holds while response 1 has not arrived. -/
theorem test_accept_holds : (after (step (waiting 0xCB#65 [.accept 0]))).map State.pending = some [⟨0, 0xCB#65⟩] := by decide
/-- P5, step 5: the reset drops what is pending and keeps the log. -/
theorem test_reset_drops : (after (step { waiting 0xCB#65 [.reset] with log := [⟨0, 13#65, 8#64⟩] })).map
    (fun t => (t.pending, t.log, t.requesters.map Requester.dropped)) = some ([], [⟨0, 13#65, 8#64⟩], [[⟨1, 0xCB#65⟩]]) := by decide
/-- D25: no next state for a request with an undefined bit. -/
theorem test_undefined_request_refused : after (step (halfDriven [.accept 0])) = none := by decide
/-- R45 through the word the host places, right after reset. -/
theorem test_fetch_word_after_reset : (after (step (State.reset.withFetchWord 72 (2 ^ 64 + 203)))).map State.log =
    some [⟨0, 0x100000000000000CB#65, 7#64⟩] := by decide

/-! ## The assembler (section 2.6 and R48) -/

theorem test_assemble_comments_and_blank_lines :
    assemble ["msb.iso 203  ; S1".toList, "".toList, "; note".toList, "msb.pos $1".toList] =
      .ok [⟨.isolate, .lit 203#64⟩, ⟨.position, .ref 1⟩] := by decide
theorem test_assemble_forward_reference_refused : assemble ["msb.iso 1".toList, "msb.pos $2".toList] = .error .badReference := by decide

/-! ## Witnesses -/

theorem test_witness_EveryWordDecodesByItsOpBit :
    ((∀ i, i < 64 → (0xCB#64).getLsbD i = (0xCB#65).getLsbD i) ∧ (0xCB#65).getLsbD 64 = false) ∧
    ((∀ i, i < 64 → (0x8000000000000000#64).getLsbD i = (0x18000000000000000#65).getLsbD i) ∧ (0x18000000000000000#65).getLsbD 64 = true) := by decide

theorem test_witness_ResponseFormat :
    ((∀ i, i < 64 → (0#64).getLsbD i = (0#65).getLsbD i) ∧ (0#65).getLsbD 64 = false) ∧
    ((∀ i, i < 64 → (0xFFFFFFFFFFFFFFFF#64).getLsbD i = (0x1FFFFFFFFFFFFFFFF#65).getLsbD i) ∧ (0x1FFFFFFFFFFFFFFFF#65).getLsbD 64 = true) := by decide

theorem test_witness_WireDecodingRefusesUndefinedBits :
    (∀ i, i < 65 → (WireWord.ofWord 0xCB#65).driven.getLsbD i = true) ∧ (64 < 65 ∧ (WireWord.mk 0xCB#65 (BitVec.allOnes 64 |>.setWidth 65)).driven.getLsbD 64 = false) := by
  decide

theorem test_witness_MsbidxIsLargestPower :
    (1 ≤ (1#64).toNat ∧ 2 ^ 0 ≤ (1#64).toNat) ∧ (1 ≤ (0xFFFFFFFFFFFFFFFF#64).toNat ∧ 2 ^ 63 ≤ (0xFFFFFFFFFFFFFFFF#64).toNat) := by decide

theorem test_witness_SmearClosedForm :
    (1 ≤ (1#64).toNat ∧ smear 1#64 = 1#64) ∧ (2 ^ 63 ≤ (0x8000000000000000#64).toNat ∧ smear 0x8000000000000000#64 = 0xFFFFFFFFFFFFFFFF#64) := by decide

theorem test_witness_SmearInAnyOrder : [32, 16, 8, 4, 2, 1].Perm [1, 2, 4, 8, 16, 32] ∧ smearBy [32, 16, 8, 4, 2, 1] 0xD#64 = 0xF#64 := by decide

/-- 1 and 2^63 − 1, the ends of the range on which ISOLATE gives one set bit. -/
theorem test_witness_IsoIsHighestPowerOfTwo :
    (1 ≤ (1#64).toNat ∧ (1#64).toNat ≤ 2 ^ 63 - 1 ∧ iso 1#64 = 1#64) ∧
    (1 ≤ (0x7FFFFFFFFFFFFFFF#64).toNat ∧ (0x7FFFFFFFFFFFFFFF#64).toNat ≤ 2 ^ 63 - 1 ∧ iso 0x7FFFFFFFFFFFFFFF#64 = 0x4000000000000000#64) := by decide

/-- 2^63 and 2^64 − 1, the ends of the top-bit inputs. -/
theorem test_witness_IsoOfTopBitInputIsZero :
    (2 ^ 63 ≤ (0x8000000000000000#64).toNat ∧ iso 0x8000000000000000#64 = 0#64) ∧
    (2 ^ 63 ≤ (0xFFFFFFFFFFFFFFFF#64).toNat ∧ iso 0xFFFFFFFFFFFFFFFF#64 = 0#64) := by decide

theorem test_witness_IsoOfZero : 2 ^ 63 ≤ (0xAAAAAAAAAAAAAAAA#64).toNat ∧ iso 0xAAAAAAAAAAAAAAAA#64 = iso 0#64 := by decide

theorem test_witness_IsoResultTable :
    ((0#64).toNat = 0 ∧ (iso 0#64).toNat = 0) ∧ (1 ≤ (0x4000000000000001#64).toNat ∧ (0x4000000000000001#64).toNat ≤ 2 ^ 63 - 1) ∧
    (2 ^ 63 ≤ (0x8000000000000001#64).toNat ∧ (0x8000000000000001#64).toNat ≤ 2 ^ 64 - 1) := by decide

theorem test_witness_IsoRange : (iso 203#64).getLsbD 7 = true ∧ iso 203#64 = 128#64 := by decide

theorem test_witness_PosClosedForm :
    (1 ≤ (1#64).toNat ∧ pos 1#64 = 0) ∧ (1 ≤ (0xFFFFFFFFFFFFFFFF#64).toNat ∧ pos 0xFFFFFFFFFFFFFFFF#64 = 63) ∧
    posLoop 63 (smear 0xFFFFFFFFFFFFFFFF#64) 0 = 63 := by decide

theorem test_witness_PosOfTopBitInput :
    (2 ^ 63 ≤ (0x8000000000000000#64).toNat ∧ pos 0x8000000000000000#64 = 63) ∧ 2 ^ 63 ≤ (0xFFFFFFFFFFFFFFFF#64).toNat := by decide

theorem test_witness_PosBuiltOnIsoDiffers :
    (1 ≤ (203#64).toNat ∧ (203#64).toNat ≤ 2 ^ 63 - 1 ∧ posViaIso 203#64 = 7) ∧
    (2 ^ 63 ≤ (0xDEADBEEFCAFEBABE#64).toNat ∧ posViaIso 0xDEADBEEFCAFEBABE#64 = 0) := by decide

theorem test_witness_IsoPosRelation :
    (1 ≤ (0x7FFFFFFFFFFFFFFF#64).toNat ∧ (0x7FFFFFFFFFFFFFFF#64).toNat ≤ 2 ^ 63 - 1 ∧ pos 0x7FFFFFFFFFFFFFFF#64 = 62) ∧
    2 ^ 63 ≤ (0x8000000000000000#64).toNat := by decide

theorem test_witness_PosOfIso :
    ((0#64).toNat ≤ 2 ^ 63 - 1 ∧ (0x7FFFFFFFFFFFFFFF#64).toNat ≤ 2 ^ 63 - 1) ∧ 2 ^ 63 ≤ (0x8000000000000000#64).toNat ∧
    pos (BitVec.ofNat 64 (2 ^ 63)) = 63 := by decide

theorem test_witness_IsolateCompletes : (waiting 0xCB#65 []).pending = ⟨0, 0xCB#65⟩ :: [] ∧
    (0#64).toNat = 0 ∧ 1 ≤ (203#64).toNat ∧ (203#64).toNat ≤ 2 ^ 63 - 1 ∧ 2 ^ 63 ≤ (0x8000000000000000#64).toNat := by decide

theorem test_witness_PositionCompletes : (waiting 0x100000000000000CB#65 [.reset]).pending = ⟨0, 0x100000000000000CB#65⟩ :: [] ∧
    (0#64).toNat = 0 ∧ 1 ≤ (1#64).toNat ∧ 2 ^ 63 ≤ (0x8000000000000000#64).toNat := by decide

theorem test_witness_NoAnswerWithNothingPending : (idle []).pending = [] := by decide

theorem test_witness_ResponseDependsOnRequestAlone :
    (waiting 0xCB#65 [.respond]).pending = ⟨0, 0xCB#65⟩ :: [] ∧ { idle [.respond] with pending := [⟨1, 0xCB#65⟩] }.pending = ⟨1, 0xCB#65⟩ :: [] ∧
    (waiting 0xCB#65 [.respond]).agenda = .respond :: [] ∧ (idle [.respond]).agenda = .respond :: [] := by decide

theorem test_witness_StepRunsDecodedRequest :
    (waiting 0xCB#65 []).pending = ⟨0, 0xCB#65⟩ :: [] ∧ (waiting 0xCB#65 []).agenda = [] ∧
    (waiting 0xCB#65 [.respond, .reset]).agenda = .respond :: [.reset] := by decide

theorem test_witness_FetchWordRunsNext : decodeTableWord 72 (2 ^ 64 + 203) = some (.msbPos 203#64) := by decide

theorem test_witness_AcceptAppendsRequest :
    (idle [.accept 1]).agenda = .accept 1 :: [] ∧
    (idle [.accept 1]).requesters[1]?.map Requester.toIssue = some [⟨1, .line ⟨.position, .lit 203#64⟩⟩] ∧
    presentItem [] (.line ⟨.position, .lit 203#64⟩) = some (WireWord.ofWord 0x100000000000000CB#65) ∧
    (∀ i, i < 65 → (WireWord.ofWord 0x100000000000000CB#65).driven.getLsbD i = true) := by decide

theorem test_witness_LiteralLineIsIssued :
    (idle [.accept 1]).agenda = .accept 1 :: [] ∧
    (idle [.accept 1]).requesters[1]?.map Requester.toIssue = some (⟨1, .line ⟨.position, .lit 203#64⟩⟩ :: []) := by decide

/-- Response 1 there (`idle`), and not there (`waiting`). -/
theorem test_witness_ReferenceWaitsForItsResponse :
    (idle [.accept 0]).requesters[0]?.map (fun q => (q.toIssue, q.received, q.numbers, q.dropped)) =
      some (⟨2, .line ⟨.position, .ref 1⟩⟩ :: [], [⟨1, 128#64⟩], [1, 2], []) ∧ [1, 2].Pairwise (· < ·) ∧
    (waiting 0xCB#65 [.accept 0]).requesters[0]?.map (fun q => (q.toIssue.head?, q.received, q.numbers, q.dropped)) =
      some (some ⟨2, .line ⟨.position, .ref 1⟩⟩, [], [1, 2, 3], []) ∧ [1, 2, 3].Pairwise (· < ·) := by decide

theorem test_witness_UndefinedRequestIsRefused :
    (halfDriven [.accept 0]).agenda = .accept 0 :: [] ∧
    (halfDriven [.accept 0]).offer 0 = some ⟨0xCB#65, BitVec.allOnes 65 ^^^ 0x80#65⟩ ∧ 7 < 65 ∧
    (BitVec.allOnes 65 ^^^ 0x80#65).getLsbD 7 = false := by decide

theorem test_witness_ResetDropsPending :
    (waiting 0xCB#65 [.reset]).agenda = .reset :: [] ∧ (waiting 0xCB#65 [.reset]).requesters[0]?.map Requester.reissues = some false ∧
    (idle [.reset]).agenda = .reset :: [] ∧ (idle [.reset]).requesters[1]?.map Requester.reissues = some true := by decide

theorem test_witness_AcceptRightAfterReset :
    (idle [.reset, .accept 1]).agenda = .reset :: .accept 1 :: [] ∧
    (idle [.reset, .accept 1]).resetBlock.offer 1 = some (WireWord.ofWord 0x100000000000000CB#65) ∧
    (WireWord.ofWord 0x100000000000000CB#65).driven = BitVec.allOnes 65 := by decide

theorem test_witness_ResponseAfterResetIsTheSame :
    (idle [.reset, .accept 1, .respond, .reset]).agenda = .reset :: .accept 1 :: .respond :: [.reset] ∧
    (idle [.reset, .accept 1, .respond, .reset]).resetBlock.offer 1 = some (WireWord.ofWord 0x100000000000000CB#65) ∧
    (WireWord.ofWord 0x100000000000000CB#65).driven = BitVec.allOnes 65 := by decide

theorem test_witness_IdleStepChangesNothing : (idle []).pending = [] ∧ (idle []).agenda = [] ∧ (idle [.respond]).agenda = .respond :: [] := by decide

theorem test_witness_StepKeepsLogSound : LogSound (idle []) ∧ step (idle []) = .next (idle []) :=
  ⟨by unfold LogSound; decide, rfl⟩

/-- A listed requester with a request in flight and one with answers, before a step that answers. -/
theorem test_witness_StepKeepsDeliveryInOrder :
    FlightMatches (waiting 0xCB#65 []) ∧ DeliveryMatches (waiting 0xCB#65 []) ∧ (after (step (waiting 0xCB#65 []))).isSome = true := by
  refine ⟨fun r q h => ?_, fun r q h => ?_, by decide⟩ <;>
  · match r with
    | 0 => cases h; decide
    | r + 1 => simp [waiting] at h

theorem test_witness_StepKeepsProgramOrder :
    ProgramOrder (waiting 0xCB#65 [.reset]) ∧ (after (step (waiting 0xCB#65 [.reset]))).isSome = true :=
  ⟨by unfold ProgramOrder Requester.ordered; decide, by decide⟩

theorem test_witness_StepKeepsAllDefined : AllDefined (waiting 0xCB#65 [.accept 0]) := by unfold AllDefined; decide

theorem test_witness_LogOnlyGrows :
    Sys2Proof.core.run 1 (waiting 0xCB#65 [.respond]) = .next ((waiting 0xCB#65 []).answer ⟨0, 0xCB#65⟩ [] 128#64) := rfl

theorem test_witness_AnswersInAcceptanceOrder :
    NoReset (idle [.accept 1]) ∧
    Sys2Proof.core.run 1 (idle [.accept 1]) = .next ((idle []).enqueue 1 0x100000000000000CB#65) :=
  ⟨by unfold NoReset; decide, rfl⟩

/-- Requester 0 has just started `msb.iso 13`, `msb.pos 13`; the first is accepted and answered. -/
def started (agenda : List Event) : State :=
  State.load { State.reset with agenda := agenda } [.line ⟨.isolate, .lit 13#64⟩, .line ⟨.position, .lit 13#64⟩] false

theorem test_witness_KthResponseAnswersKthRequest :
    NoReset (started [.accept 0, .respond]) ∧ FlightMatches (started [.accept 0, .respond]) ∧
    (started [.accept 0, .respond]).requesters[0]? =
      some (Requester.start [.line ⟨.isolate, .lit 13#64⟩, .line ⟨.position, .lit 13#64⟩] false) ∧
    Sys2Proof.core.run 2 (started [.accept 0, .respond]) = .next (((started []).enqueue 0 13#65).answer ⟨0, 13#65⟩ [] 8#64) ∧
    (((started []).enqueue 0 13#65).answer ⟨0, 13#65⟩ [] 8#64).requesters[0]?.map Requester.received = some [⟨1, 8#64⟩] := by
  refine ⟨by unfold NoReset; decide, fun r q h => ?_, by decide, rfl, by decide⟩
  match r with
  | 0 => cases h; decide
  | r + 1 => simp [started, State.reset, State.load] at h

/-- Request 1 there was accepted as the word of `msb.iso 13`. -/
theorem test_witness_AcceptedAs : AcceptedAs (started [.accept 0, .respond]) 2 0 1 13#65 :=
  ⟨0, started [.accept 0, .respond], [.respond], Requester.start [.line ⟨.isolate, .lit 13#64⟩, .line ⟨.position, .lit 13#64⟩] false,
    .line ⟨.isolate, .lit 13#64⟩, [⟨2, .line ⟨.position, .lit 13#64⟩⟩], WireWord.ofWord 13#65, by decide, rfl, rfl, by decide, by decide, by decide, rfl, rfl⟩

theorem test_witness_PendingRequestsAreAnswered :
    AllDefined (waiting 0xCB#65 [.accept 0]) ∧ NoReset (waiting 0xCB#65 [.accept 0]) :=
  ⟨by unfold AllDefined; decide, by unfold NoReset; decide⟩

theorem test_witness_RunsAreBlockRuns :
    Sys2Proof.core.run 1 (waiting 0xCB#65 [.reset]) = .next ((waiting 0xCB#65 []).resetBlock) := rfl

/-- Steps 1, 3 and 5 of P5: accept, answer, reset. -/
theorem test_witness_EveryBlockRunIsAdmitted : BlockRun ⟨[], []⟩ ⟨[], [⟨0, 13#65, 8#64⟩]⟩ :=
  .head _ _ _ (.accept ⟨[], []⟩ 0 13#65) (.head _ _ _ (.respond 0 13#65 [] []) (.head _ _ _ (.reset _) (.refl _)))

theorem test_witness_EitherAcceptOrder :
    (idle []).offer 0 = some (WireWord.ofWord 0x10000000000000080#65) ∧ (idle []).offer 1 = some (WireWord.ofWord 0x100000000000000CB#65) ∧
    (0 : Nat) ≠ 1 ∧ (WireWord.ofWord 0x10000000000000080#65).driven = BitVec.allOnes 65 := by decide

theorem test_witness_EndedRunStaysEnded :
    runEnded { idle [.accept 0, .reset] with requesters := [Requester.start [] true] } = true := by decide

theorem test_witness_DroppedRequestNeverAnswered :
    ProgramOrder (dropped [.accept 0]) ∧ (dropped [.accept 0]).requesters[0]?.map Requester.dropped = some [⟨1, 0xCB#65⟩] ∧
    Sys2Proof.core.run 1 (dropped [.accept 0]) = .next (dropped []) :=
  ⟨by unfold ProgramOrder Requester.ordered; decide, by decide, rfl⟩

theorem test_witness_AssembledProgramsAreWellFormed :
    assemble ["msb.iso 13".toList, "msb.pos $1".toList] = .ok [⟨.isolate, .lit 13#64⟩, ⟨.position, .ref 1⟩] := by decide

theorem test_witness_EveryLineHasSourceText :
    (Line.mk .position (.ref 1)).wellFormed 2 = true ∧ lineText ⟨.position, .ref 1⟩ = "msb.pos $1".toList ∧
    (Line.mk .isolate (.lit 0xFFFFFFFFFFFFFFFF#64)).wellFormed 1 = true := by decide

end Sys2Proof.Tests
end

section
/-! The rule for `msbidx`: it is determined by the powers of two that `x` reaches (R7, R9). -/

namespace Sys2Proof.Machine

/-- Later proofs bound `msbidx` from either side through this equivalence and do not unfold it. -/
theorem le_msbidx_iff {x : Word} (hx : 1 ≤ x.toNat) (p : Nat) : p ≤ msbidx x ↔ 2 ^ p ≤ x.toNat :=
  Nat.le_log2 (Nat.ne_of_gt hx)

/-- Settles O8: at `p = msbidx x` the rule says that the power is reached, at any other `p` that none above it is. -/
theorem msbidxIsLargestPower : Obligations.MsbidxIsLargestPower := by
  intro x hx
  have power_le : 2 ^ msbidx x ≤ x.toNat := (le_msbidx_iff hx _).mp le_rfl
  have largest : ∀ p, 2 ^ p ≤ x.toNat → p ≤ msbidx x := fun p => (le_msbidx_iff hx p).mpr
  exact ⟨power_le, largest⟩

end Sys2Proof.Machine
end

section
/-! The step, one equation for each form of the agenda, and when a step is sure to give a next state. -/

namespace Sys2Proof.Machine

theorem step_of_agenda_nil {s : State} (ha : s.agenda = []) : step s = serve s := by
  simp only [step, ha]

theorem step_of_agenda_accept {s : State} {r : Nat} {ev : List Event} (ha : s.agenda = .accept r :: ev) :
    step s = accept r (s.withAgenda ev) := by
  simp only [step, ha]

theorem step_of_agenda_respond {s : State} {ev : List Event} (ha : s.agenda = .respond :: ev) :
    step s = serve (s.withAgenda ev) := by
  simp only [step, ha]

theorem step_of_agenda_reset {s : State} {ev : List Event} (ha : s.agenda = .reset :: ev) :
    step s = .next (s.withAgenda ev).resetBlock := by
  simp only [step, ha]

theorem serve_eq_exec {s : State} {p : Pending} {rest : List Pending} (hp : s.pending = p :: rest) :
    serve s = exec (decode p.req) s := by
  simp only [serve, fetch, hp]

/-- The block's move answers the oldest pending request with its result (R22, R45). -/
theorem step_answers {s : State} {ev : List Event} {p : Pending} {rest : List Pending} (ha : s.agenda = .respond :: ev)
    (hp : s.pending = p :: rest) : step s = .next ((s.withAgenda ev).answer p rest (result p.req)) :=
  (step_of_agenda_respond ha).trans (serve_cons (s.withAgenda ev) p rest hp)

theorem accept_of_offer_none {s : State} {r : Nat} (ho : s.offer r = none) : accept r s = .next s := by
  simp only [accept, ho]

theorem accept_of_offer_defined {s : State} {r : Nat} {w : WireWord} (ho : s.offer r = some w)
    (hd : w.defined = true) : accept r s = .next (s.enqueue r w.bits) := by
  simp only [accept, ho, hd, if_true]

theorem offer_of_toIssue {s : State} {r : Nat} {q : Requester} {n : Numbered} {rest : List Numbered}
    (hq : s.requesters[r]? = some q) (hi : q.toIssue = n :: rest) : s.offer r = presentItem q.received n.item := by
  simp only [State.offer, hq, Option.bind_some, Requester.offer, hi]

theorem exists_serve_next (s : State) : ∃ t, serve s = .next t := by
  cases hp : s.pending with
  | nil => exact ⟨s, serve_nil s hp⟩
  | cons p rest => exact ⟨_, serve_cons s p rest hp⟩

/-- Where no requester presents an undefined bit, the machine moves on, whatever the agenda. -/
theorem exists_step_next {s : State} (hd : ∀ r w, s.offer r = some w → w.defined = true) : ∃ t, step s = .next t := by
  match ha : s.agenda with
  | [] => rw [step_of_agenda_nil ha]; exact exists_serve_next s
  | .respond :: ev => rw [step_of_agenda_respond ha]; exact exists_serve_next _
  | .reset :: ev => exact ⟨_, step_of_agenda_reset ha⟩
  | .accept r :: ev =>
    rw [step_of_agenda_accept ha]
    cases ho : s.offer r with
    | none => exact ⟨_, accept_of_offer_none ho⟩
    | some w => exact ⟨_, accept_of_offer_defined ho (hd r w ho)⟩

/-- Settles O29: `serve` decodes and runs the oldest request under either form of the agenda. -/
theorem stepRunsDecodedRequest : Obligations.StepRunsDecodedRequest := by
  intro s p rest hp
  constructor
  · intro ha
    rw [step_of_agenda_nil ha, serve_eq_exec hp]
  · intro ev ha
    rw [step_of_agenda_respond ha]
    exact serve_eq_exec hp

/-- Settles O28: both steps answer with `result` of the request at the head, and the two requests are one word. -/
theorem responseDependsOnRequestAlone : Obligations.ResponseDependsOnRequestAlone := by
  intro s s' p p' rest rest' ev ev' hp hp' hreq ha ha'
  exact ⟨_, _, result p.req, step_answers ha hp, step_answers ha' hp', rfl, rfl, by rw [hreq]; rfl⟩

/-- Settles O31: the offer is the presented word, so the step is the enqueueing; its frame is that of one modified requester. -/
theorem acceptAppendsRequest : Obligations.AcceptAppendsRequest := by
  intro s r ev q n rest w ha hq hi hw hbits
  have hstep : step s = .next ((s.withAgenda ev).enqueue r w.bits) := by
    rw [step_of_agenda_accept ha]
    exact accept_of_offer_defined ((offer_of_toIssue hq hi).trans hw) ((defined_iff_bits w).2 hbits)
  refine ⟨_, hstep, rfl, rfl, rfl, ?length, ?others, ?own⟩
  case length => simp
  case others =>
    intro r' hne
    simp [Ne.symm hne]
  case own => simp [hq, sent_cons _ _ _ _ hi]

/-- Settles O40: every clause of the invariants speaks of an element of an empty list. -/
theorem resetMeetsInvariants : Obligations.ResetMeetsInvariants := by
  refine ⟨rfl, rfl, ?_, ?_, ?_, ?_, ?_⟩
  · intro e he
    cases he
  · intro r q hq
    cases hq
  · intro r q hq
    cases hq
  · intro q hq
    cases hq
  · intro q hq
    cases hq

end Sys2Proof.Machine
end

section
/-! The block's part of a run: each step is a step of the spec's block (R22, R82), and what the block steps do to `pending` and `log`. -/

namespace Sys2Proof.Machine

theorem block_of_pending_cons {s : State} {p : Pending} {rest : List Pending} (hp : s.pending = p :: rest) :
    s.block = ⟨p :: rest, s.log⟩ := by
  rw [State.block, hp]

/-- What every step keeps, every run keeps. -/
theorem run_keeps {P : State → Prop} (hstep : ∀ s t, P s → step s = .next t → P t) {k : Nat} {s t : State} (hs : P s)
    (hrun : Sys2Proof.core.run k s = .next t) : P t := by
  induction k generalizing s with
  | zero => exact run_zero s t hrun ▸ hs
  | succ k ih =>
    obtain ⟨m, hm, hk⟩ := run_succ k s t hrun
    exact ih (hstep s m hs hm) hk

theorem blockStep_of_step {s t : State} (h : step s = .next t) : t.block = s.block ∨ BlockStep s.block t.block := by
  rcases step_cases s t h with ⟨rfl, -⟩ | ⟨r, ev, w, -, -, -, rfl⟩ | ⟨-, p, rest, hp, rfl⟩ | ⟨ev, -, rfl⟩
  · exact .inl rfl
  · exact .inr (.accept s.block r w.bits)
  · rw [block_of_pending_cons hp]
    exact .inr (.respond p.requester p.req rest s.log)
  · exact .inr (.reset s.block)

theorem blockRun_of_run {k : Nat} {s t : State} (h : Sys2Proof.core.run k s = .next t) : BlockRun s.block t.block := by
  induction k generalizing s with
  | zero => exact run_zero s t h ▸ .refl _
  | succ k ih =>
    obtain ⟨m, hm, hk⟩ := run_succ k s t h
    rcases blockStep_of_step hm with same | moved
    · exact same ▸ ih hk
    · exact .head _ _ _ moved (ih hk)

/-- Settles O49. -/
theorem runsAreBlockRuns : Obligations.RunsAreBlockRuns :=
  ⟨fun _ _ => blockStep_of_step, fun _ _ _ => blockRun_of_run⟩

theorem BlockStep.log_grows {b c : Block} (h : BlockStep b c) : b.log <+: c.log := by
  cases h with
  | accept r w => exact List.prefix_rfl
  | respond r w rest log => exact List.prefix_append _ _
  | reset => exact List.prefix_rfl

theorem BlockRun.log_grows {b c : Block} (h : BlockRun b c) : b.log <+: c.log := by
  induction h with
  | refl b => exact List.prefix_rfl
  | head a b c first _ ih => exact first.log_grows.trans ih

/-- Settles O45: a run is a block run, and no block step takes anything from the log. -/
theorem logOnlyGrows : Obligations.LogOnlyGrows :=
  fun _ _ _ h => (blockRun_of_run h).log_grows

end Sys2Proof.Machine
end

section
/-! Service in acceptance order (R22, R34): while no reset comes, the block answers from the front of `pending` and accepts at its end. -/

namespace Sys2Proof.Machine

/-- From `b` to `c` the block answered some requests, each with its result, and accepted some: those answered and then those still pending
are those that were pending and then those accepted. -/
def ServedInOrder (b c : Block) : Prop :=
  ∃ answered accepted : List Pending,
    c.log = b.log ++ answered.map Pending.answered ∧ answered ++ c.pending = b.pending ++ accepted

theorem ServedInOrder.refl (b : Block) : ServedInOrder b b := ⟨[], [], by simp, by simp⟩

theorem ServedInOrder.trans {a b c : Block} (hab : ServedInOrder a b) (hbc : ServedInOrder b c) : ServedInOrder a c := by
  obtain ⟨ans₁, acc₁, hlog₁, hpend₁⟩ := hab
  obtain ⟨ans₂, acc₂, hlog₂, hpend₂⟩ := hbc
  refine ⟨ans₁ ++ ans₂, acc₁ ++ acc₂, by simp [hlog₁, hlog₂], ?_⟩
  calc ans₁ ++ ans₂ ++ c.pending = ans₁ ++ b.pending ++ acc₂ := by simp [hpend₂]
    _ = a.pending ++ (acc₁ ++ acc₂) := by simp [hpend₁]

theorem agenda_of_step {s t : State} (h : step s = .next t) : t.agenda = s.agenda.tail := by
  rcases step_cases s t h with ⟨rfl, -⟩ | ⟨r, ev, w, ha, -, -, rfl⟩ | ⟨-, p, rest, -, rfl⟩ | ⟨ev, ha, rfl⟩
  · rfl
  · simp [ha]
  · rfl
  · simp [ha]

theorem noReset_of_step {s t : State} (hn : NoReset s) (h : step s = .next t) : NoReset t :=
  fun hmem => hn (List.mem_of_mem_tail (agenda_of_step h ▸ hmem))

theorem servedInOrder_of_step {s t : State} (hn : NoReset s) (h : step s = .next t) : ServedInOrder s.block t.block := by
  rcases step_cases s t h with ⟨rfl, -⟩ | ⟨r, ev, w, -, -, -, rfl⟩ | ⟨-, p, rest, hp, rfl⟩ | ⟨ev, ha, rfl⟩
  · exact .refl _
  · exact ⟨[], [⟨r, w.bits⟩], by simp [State.block], by simp [State.block]⟩
  · exact ⟨[p], [], by simp [State.block, Pending.answered], by simp [State.block, hp]⟩
  · exact absurd (ha ▸ List.mem_cons_self) hn

theorem servedInOrder_of_run {k : Nat} {s t : State} (hn : NoReset s) (h : Sys2Proof.core.run k s = .next t) :
    ServedInOrder s.block t.block := by
  have keep : ∀ u v, NoReset u ∧ ServedInOrder s.block u.block → step u = .next v →
      NoReset v ∧ ServedInOrder s.block v.block := by
    rintro u v ⟨hu, served⟩ huv
    exact ⟨noReset_of_step hu huv, served.trans (servedInOrder_of_step hu huv)⟩
  exact (run_keeps keep ⟨hn, .refl _⟩ h).2

/-- An answered request keeps its place in the history of accepted requests. -/
theorem ServedInOrder.history {s t : State} (h : ServedInOrder s.block t.block) :
    ∃ accepted, t.history = s.history ++ accepted := by
  obtain ⟨answered, accepted, hlog, hpend⟩ := h
  have requests : (answered.map Pending.answered).map (fun e => (⟨e.requester, e.req⟩ : Pending)) = answered := by
    simp [Function.comp_def, Pending.answered]
  refine ⟨accepted, ?_⟩
  simp only [State.block] at hlog hpend
  rw [State.history, State.history, hlog, List.map_append, requests, List.append_assoc, hpend, List.append_assoc]

/-- Settles O46: service in order along the run, read off the history; the log grows as in every run. -/
theorem answersInAcceptanceOrder : Obligations.AnswersInAcceptanceOrder := by
  intro k s t hn h
  obtain ⟨accepted, hhist⟩ := (servedInOrder_of_run hn h).history
  exact ⟨accepted, hhist, (logOnlyGrows k s t h).length_le⟩

end Sys2Proof.Machine
end

section
/-! What one step makes of a requester, said once; the invariants that speak of each requester by itself follow from it. -/

namespace Sys2Proof.Machine

/-- A requester is left as it is, has its next request accepted, receives a response, or sees a reset (R21, R22, R82). -/
inductive RequesterMove : Requester → Requester → Prop where
  | keep (q : Requester) : RequesterMove q q
  | sent (w : ReqWord) (q : Requester) : RequesterMove q (q.sent w)
  | receive (v : Word) (q : Requester) : RequesterMove q (q.receive v)
  | reset (q : Requester) : RequesterMove q q.afterReset

/-- Updating requester `i` moves each requester, if the update is a move. -/
theorem requester_of_modify (l : List Requester) {f : Requester → Requester} (hf : ∀ q, RequesterMove q (f q)) (i r : Nat) :
    ∃ g : Requester → Requester, (l.modify i f)[r]? = l[r]?.map g ∧ ∀ q, RequesterMove q (g q) := by
  refine ⟨fun q => if i = r then f q else q, List.getElem?_modify .., fun q => ?_⟩
  dsimp only
  split
  · exact hf q
  · exact .keep q

theorem requester_of_step {s t : State} (h : step s = .next t) (r : Nat) :
    ∃ g : Requester → Requester, t.requesters[r]? = s.requesters[r]?.map g ∧ ∀ q, RequesterMove q (g q) := by
  rcases step_cases s t h with ⟨rfl, -⟩ | ⟨i, ev, w, -, -, -, rfl⟩ | ⟨-, p, rest, -, rfl⟩ | ⟨ev, -, rfl⟩
  · exact ⟨id, by simp, .keep⟩
  · exact requester_of_modify s.requesters (.sent w.bits) i r
  · exact requester_of_modify s.requesters (.receive (result p.req)) p.requester r
  · exact ⟨Requester.afterReset, by simp, .reset⟩

/-- A property of requesters that every move keeps, held by all of them, every step keeps. -/
theorem requesters_keep {P : Requester → Prop} (hmove : ∀ q q', RequesterMove q q' → P q → P q') {s t : State}
    (hs : ∀ q ∈ s.requesters, P q) (h : step s = .next t) : ∀ q ∈ t.requesters, P q := by
  intro q' hq'
  obtain ⟨r, hr⟩ := List.mem_iff_getElem?.1 hq'
  obtain ⟨g, hg, moves⟩ := requester_of_step h r
  obtain ⟨q, hq, rfl⟩ := Option.map_eq_some_iff.1 (hg ▸ hr)
  exact hmove q _ (moves q) (hs q (List.mem_of_getElem? hq))

/-! ### Defined requests (R84) -/

theorem RequesterMove.defined {q q' : Requester} (h : RequesterMove q q')
    (hd : ∀ n ∈ q.toIssue, n.item.defined = true) : ∀ n ∈ q'.toIssue, n.item.defined = true := by
  cases h with
  | keep => exact hd
  | sent w =>
    cases hi : q.toIssue with
    | nil => rw [sent_nil w q hi]; exact hd
    | cons m rest =>
      rw [sent_cons w q m rest hi]
      exact fun n hn => hd n (hi ▸ List.mem_cons_of_mem m hn)
  | receive v => rw [receive_toIssue]; exact hd
  | reset =>
    cases hre : q.reissues with
    | false => rw [afterReset_dropping q hre]; exact hd
    | true =>
      rw [afterReset_again q hre]
      intro n hn
      rcases List.mem_append.1 hn with again | later
      · obtain ⟨m, -, rfl⟩ := List.mem_map.1 again
        exact ofWord_defined m.req
      · exact hd n later

theorem allDefined_of_step {s t : State} (hd : AllDefined s) (h : step s = .next t) : AllDefined t :=
  requesters_keep (fun _ _ => RequesterMove.defined) hd h

theorem presentItem_defined {received : List Received} {item : Item} {w : WireWord}
    (h : presentItem received item = some w) (hd : item.defined = true) : w.defined = true := by
  cases item with
  | line l =>
    obtain ⟨x, -, rfl⟩ := Option.map_eq_some_iff.1 h
    exact ofWord_defined _
  | wire w' =>
    cases h
    exact hd

theorem offer_defined {s : State} (hd : AllDefined s) {r : Nat} {w : WireWord} (h : s.offer r = some w) :
    w.defined = true := by
  obtain ⟨q, n, rest, hq, hi, hw⟩ := offer_some s r w h
  exact presentItem_defined hw (hd q (List.mem_of_getElem? hq) n (hi ▸ List.mem_cons_self))

/-! ### Program order (R49) -/

theorem numbers_sent (w : ReqWord) (q : Requester) : (q.sent w).numbers = q.numbers := by
  cases hi : q.toIssue with
  | nil => rw [sent_nil w q hi]
  | cons n rest => simp [sent_cons w q n rest hi, Requester.numbers, hi]

theorem numbers_receive (v : Word) (q : Requester) : (q.receive v).numbers = q.numbers := by
  cases hf : q.inFlight with
  | nil => rw [receive_nil v q hf]
  | cons n rest => simp [receive_cons v q n rest hf, Requester.numbers, hf]

theorem numbers_afterReset_again {q : Requester} (h : q.reissues = true) : q.afterReset.numbers = q.numbers := by
  simp [afterReset_again q h, Requester.numbers, Sent.again, Function.comp_def]

/-- A requester that does not reissue takes the numbers in flight out of its program, and none of them stands there twice. -/
theorem ordered_afterReset_dropping {q : Requester} (h : q.reissues = false) (ho : q.ordered) : q.afterReset.ordered := by
  obtain ⟨increasing, lost⟩ := ho
  rw [afterReset_dropping q h]
  have fewer : (q.received.map Received.number ++ q.toIssue.map Numbered.number).Sublist q.numbers := by
    rw [Requester.numbers, List.append_assoc]
    exact (List.sublist_append_right _ _).append_left _
  have numbers_eq : ({ q with dropped := q.dropped ++ q.inFlight, inFlight := [] } : Requester).numbers =
      q.received.map Received.number ++ q.toIssue.map Numbered.number := by
    simp [Requester.numbers]
  rw [Requester.ordered, numbers_eq]
  refine ⟨increasing.sublist fewer, fun d hd => ?_⟩
  rcases List.mem_append.1 hd with before | now
  · exact fun hmem => lost d before (fewer.subset hmem)
  · have hnum : d.number ∈ q.inFlight.map Sent.number := List.mem_map_of_mem now
    simp only [Requester.numbers, List.pairwise_append] at increasing
    obtain ⟨⟨-, -, received_lt⟩, -, lt_toIssue⟩ := increasing
    intro hmem
    rcases List.mem_append.1 hmem with early | late
    · exact (received_lt _ early _ hnum).ne rfl
    · exact (lt_toIssue _ (List.mem_append_right _ hnum) _ late).ne rfl

theorem RequesterMove.ordered {q q' : Requester} (h : RequesterMove q q') (ho : q.ordered) : q'.ordered := by
  cases h with
  | keep => exact ho
  | sent w => rwa [Requester.ordered, numbers_sent, sent_dropped]
  | receive v => rwa [Requester.ordered, numbers_receive, receive_dropped]
  | reset =>
    cases hre : q.reissues with
    | false => exact ordered_afterReset_dropping hre ho
    | true =>
      rw [Requester.ordered, numbers_afterReset_again hre, afterReset_again q hre]
      exact ho

theorem programOrder_of_step {s t : State} (ho : ProgramOrder s) (h : step s = .next t) : ProgramOrder t :=
  requesters_keep (fun _ _ => RequesterMove.ordered) ho h

/-! ### Dropped requests (R23, R82) -/

theorem RequesterMove.dropped {q q' : Requester} (h : RequesterMove q q') {d : Sent} (hd : d ∈ q.dropped) :
    d ∈ q'.dropped := by
  cases h with
  | keep => exact hd
  | sent w => rwa [sent_dropped]
  | receive v => rwa [receive_dropped]
  | reset =>
    cases hre : q.reissues with
    | false => rw [afterReset_dropping q hre]; exact List.mem_append_left _ hd
    | true => rw [afterReset_again q hre]; exact hd

theorem dropped_of_step {s t : State} {r : Nat} {d : Sent} (hd : ∃ q, s.requesters[r]? = some q ∧ d ∈ q.dropped)
    (h : step s = .next t) : ∃ q, t.requesters[r]? = some q ∧ d ∈ q.dropped := by
  obtain ⟨q, hq, hmem⟩ := hd
  obtain ⟨g, hg, moves⟩ := requester_of_step h r
  exact ⟨g q, by rw [hg, hq, Option.map_some], (moves q).dropped hmem⟩

theorem responseTo_dropped {q : Requester} (ho : q.ordered) {d : Sent} (hd : d ∈ q.dropped) :
    responseTo q.received d.number = none := by
  have unanswered : d.number ∉ q.received.map Received.number := fun hmem =>
    ho.2 d hd (List.mem_append_left _ (List.mem_append_left _ hmem))
  rw [responseTo, Option.map_eq_none_iff, List.find?_eq_none]
  intro e he heq
  exact unanswered (beq_iff_eq.1 heq ▸ List.mem_map_of_mem he)

/-! ### The end of a run (R23) -/

theorem done_iff (q : Requester) : q.done = true ↔ q.toIssue = [] ∧ q.inFlight = [] ∧ q.dropped = [] := by
  simp [Requester.done, and_assoc]

theorem runEnded_iff (s : State) : runEnded s = true ↔ s.pending = [] ∧ ∀ q ∈ s.requesters, q.done = true := by
  simp [runEnded]

theorem not_runEnded_of_dropped {s : State} {q : Requester} {d : Sent} (hq : q ∈ s.requesters) (hd : d ∈ q.dropped) :
    runEnded s = false := by
  rw [Bool.eq_false_iff]
  intro ended
  obtain ⟨-, -, none_dropped⟩ := (done_iff q).1 (((runEnded_iff s).1 ended).2 q hq)
  exact List.not_mem_nil (none_dropped ▸ hd)

/-- Settles O53: the program order and the note of the dropped request stay along the run, and at its end exclude a response and the run's end. -/
theorem droppedRequestNeverAnswered : Obligations.DroppedRequestNeverAnswered := by
  intro k s t r q d ho hq hd hrun
  have keep : ∀ u v, (ProgramOrder u ∧ ∃ q, u.requesters[r]? = some q ∧ d ∈ q.dropped) → step u = .next v →
      ProgramOrder v ∧ ∃ q, v.requesters[r]? = some q ∧ d ∈ q.dropped := by
    rintro u v ⟨hu, noted⟩ huv
    exact ⟨programOrder_of_step hu huv, dropped_of_step noted huv⟩
  obtain ⟨ht, q', hq', hd'⟩ := run_keeps keep ⟨ho, q, hq, hd⟩ hrun
  have listed : q' ∈ t.requesters := List.mem_of_getElem? hq'
  exact ⟨q', hq', hd', responseTo_dropped (ht q' listed) hd', not_runEnded_of_dropped listed hd'⟩

theorem RequesterMove.done {q q' : Requester} (h : RequesterMove q q') (hq : q.done = true) : q'.done = true := by
  obtain ⟨issued, answered, dropped⟩ := (done_iff q).1 hq
  cases h with
  | keep => exact hq
  | sent w => rwa [sent_nil w q issued]
  | receive v => rwa [receive_nil v q answered]
  | reset =>
    rw [done_iff]
    cases hre : q.reissues with
    | false => simp [afterReset_dropping q hre, issued, answered, dropped]
    | true => simp [afterReset_again q hre, issued, answered, dropped]

theorem offer_of_runEnded {s : State} (h : runEnded s = true) (r : Nat) : s.offer r = none := by
  rw [Option.eq_none_iff_forall_ne_some]
  intro w ho
  obtain ⟨q, n, rest, hq, hi, -⟩ := offer_some s r w ho
  obtain ⟨issued, -, -⟩ := (done_iff q).1 (((runEnded_iff s).1 h).2 q (List.mem_of_getElem? hq))
  exact List.cons_ne_nil n rest (hi ▸ issued)

theorem block_of_step_of_runEnded {s t : State} (hend : runEnded s = true) (h : step s = .next t) :
    t.block = s.block := by
  have empty : s.pending = [] := ((runEnded_iff s).1 hend).1
  rcases step_cases s t h with ⟨rfl, -⟩ | ⟨r, ev, w, -, ho, -, -⟩ | ⟨-, p, rest, hp, -⟩ | ⟨ev, -, rfl⟩
  · rfl
  · exact absurd ho (by simp [offer_of_runEnded hend])
  · exact absurd (empty ▸ hp) (List.cons_ne_nil p rest).symm
  · simp [State.block, empty]

/-- Settles O52: nobody offers a request, so the machine moves on; the block stays and every requester stays done. -/
theorem endedRunStaysEnded : Obligations.EndedRunStaysEnded := by
  intro s hend
  have offers : ∀ r w, s.offer r = some w → w.defined = true := by simp [offer_of_runEnded hend]
  obtain ⟨t, ht⟩ := exists_step_next offers
  have same : t.block = s.block := block_of_step_of_runEnded hend ht
  obtain ⟨empty, alldone⟩ := (runEnded_iff s).1 hend
  have empty' : t.pending = [] := (congrArg Block.pending same).trans empty
  exact ⟨t, ht, (runEnded_iff t).2 ⟨empty', requesters_keep (fun _ _ => RequesterMove.done) alldone ht⟩, same⟩

end Sys2Proof.Machine
end

section
/-! The work a state has to come (R22's fairness, entry 2): each move may add one request to answer, so it counts twice. -/

namespace Sys2Proof.Machine

def workLeft (s : State) : Nat := 2 * s.agenda.length + s.pending.length

theorem workLeft_eq_zero_iff (s : State) : workLeft s = 0 ↔ s.pending = [] ∧ s.agenda = [] := by
  simp [workLeft, and_comm]

theorem workLeft_of_step {s t : State} (h : step s = .next t) : workLeft t < workLeft s ∨ workLeft t = 0 := by
  have tail : t.agenda.length = s.agenda.length - 1 := by rw [agenda_of_step h, List.length_tail]
  rw [workLeft, workLeft, tail]
  rcases step_cases s t h with ⟨rfl, ⟨-, hp⟩ | ⟨r, ev, ha, -⟩⟩ | ⟨r, ev, w, ha, -, -, rfl⟩ | ⟨-, p, rest, hp, rfl⟩ | ⟨ev, ha, rfl⟩
  · simp only [withAgenda_pending, hp, List.length_nil]
    omega
  · simp only [withAgenda_pending, ha, List.length_cons]
    omega
  · simp only [enqueue_pending, withAgenda_pending, ha, List.length_append, List.length_cons, List.length_nil]
    omega
  · simp only [answer_pending, hp, List.length_cons]
    omega
  · simp only [resetBlock_pending, ha, List.length_cons, List.length_nil]
    omega

theorem exists_run_to_rest {n : Nat} {s : State} (hd : AllDefined s) (hn : workLeft s ≤ n) :
    ∃ t, Sys2Proof.core.run n s = .next t ∧ workLeft t = 0 := by
  induction n generalizing s with
  | zero => exact ⟨s, rfl, Nat.le_zero.1 hn⟩
  | succ n ih =>
    obtain ⟨m, hm⟩ := exists_step_next fun r w => offer_defined (r := r) (w := w) hd
    have less : workLeft m ≤ n := by
      have := workLeft_of_step hm
      omega
    rw [run_step n s m hm]
    exact ih (allDefined_of_step hd hm) less

/-- Settles O48: the run comes to rest, and served in order with nothing left pending it has answered what was pending first. -/
theorem pendingRequestsAreAnswered : Obligations.PendingRequestsAreAnswered := by
  intro s hd
  obtain ⟨t, hrun, rest⟩ := exists_run_to_rest hd le_rfl
  obtain ⟨hp, ha⟩ := (workLeft_eq_zero_iff t).1 rest
  refine ⟨t, hrun, hp, ha, fun hn => ?_⟩
  obtain ⟨answered, accepted, hlog, hpend⟩ := servedInOrder_of_run hn hrun
  have all_answered : answered = s.pending ++ accepted := by simpa [State.block, hp] using hpend
  refine ⟨accepted.map Pending.answered, ?_⟩
  simpa [State.block, all_answered] using hlog

end Sys2Proof.Machine
end

section
/-! Delivery (R22, R34, R78): what an accept, an answer and a reset each make of a requester's notes and of the block's record of it. -/

namespace Sys2Proof.Machine

@[simp] theorem resetBlock_pendingOf (s : State) (r : Nat) : s.resetBlock.pendingOf r = [] := rfl

theorem enqueue_pendingOf_self (s : State) (r : Nat) (w : ReqWord) :
    (s.enqueue r w).pendingOf r = s.pendingOf r ++ [w] := by
  simp [State.pendingOf]

theorem enqueue_pendingOf_other (s : State) {i r : Nat} (hne : i ≠ r) (w : ReqWord) :
    (s.enqueue i w).pendingOf r = s.pendingOf r := by
  simp [State.pendingOf, hne]

theorem pendingOf_answer_self {s : State} {p : Pending} {rest : List Pending} (hp : s.pending = p :: rest) (v : Word) :
    s.pendingOf p.requester = p.req :: (s.answer p rest v).pendingOf p.requester := by
  simp [State.pendingOf, hp]

theorem pendingOf_answer_other {s : State} {p : Pending} {rest : List Pending} (hp : s.pending = p :: rest) {r : Nat}
    (hne : p.requester ≠ r) (v : Word) : (s.answer p rest v).pendingOf r = s.pendingOf r := by
  simp [State.pendingOf, hp, hne]

theorem answer_answersTo_self (s : State) (p : Pending) (rest : List Pending) (v : Word) :
    (s.answer p rest v).answersTo p.requester = s.answersTo p.requester ++ [v] := by
  simp [State.answersTo]

theorem answer_answersTo_other (s : State) (p : Pending) (rest : List Pending) {r : Nat} (hne : p.requester ≠ r) (v : Word) :
    (s.answer p rest v).answersTo r = s.answersTo r := by
  simp [State.answersTo, hne]

/-- A requester's notes agree with the block: in flight is what is pending of it, received is what it was answered. -/
def NotesAgree (s : State) (r : Nat) (q : Requester) : Prop :=
  q.inFlight.map Sent.req = s.pendingOf r ∧ q.received.map Received.rsp = s.answersTo r

/-- Every listed requester's notes agree with the block. -/
def AllNotesAgree (s : State) : Prop := ∀ r q, s.requesters[r]? = some q → NotesAgree s r q

theorem allNotesAgree_iff (s : State) : AllNotesAgree s ↔ FlightMatches s ∧ DeliveryMatches s :=
  ⟨fun h => ⟨fun r q hq => (h r q hq).1, fun r q hq => (h r q hq).2⟩,
    fun ⟨flight, delivery⟩ r q hq => ⟨flight r q hq, delivery r q hq⟩⟩

theorem allNotesAgree_withAgenda {s : State} (h : AllNotesAgree s) (a : List Event) : AllNotesAgree (s.withAgenda a) := h

theorem allNotesAgree_enqueue {s : State} (h : AllNotesAgree s) {i : Nat} {w : WireWord} (ho : s.offer i = some w) :
    AllNotesAgree (s.enqueue i w.bits) := by
  intro r q' hq'
  rcases getElem?_modify_some _ _ _ _ _ hq' with ⟨rfl, q, hq, rfl⟩ | ⟨hne, hq⟩
  · obtain ⟨flight, delivery⟩ := h i q hq
    obtain ⟨q₀, n, rest, hq₀, hi, -⟩ := offer_some s i w ho
    obtain rfl : q₀ = q := Option.some.inj (hq₀.symm.trans hq)
    constructor
    · rw [enqueue_pendingOf_self, sent_cons _ _ _ _ hi, ← flight, List.map_append]
      rfl
    · rw [sent_received]
      exact delivery
  · obtain ⟨flight, delivery⟩ := h r q' hq
    exact ⟨flight.trans (enqueue_pendingOf_other s hne w.bits).symm, delivery⟩

theorem allNotesAgree_answer {s : State} (h : AllNotesAgree s) {p : Pending} {rest : List Pending}
    (hp : s.pending = p :: rest) (v : Word) : AllNotesAgree (s.answer p rest v) := by
  intro r q' hq'
  rcases getElem?_modify_some _ _ _ _ _ hq' with ⟨rfl, q, hq, rfl⟩ | ⟨hne, hq⟩
  · obtain ⟨flight, delivery⟩ := h p.requester q hq
    rw [pendingOf_answer_self hp v] at flight
    obtain ⟨n, later, hf, -, hlater⟩ := List.map_eq_cons_iff.1 flight
    rw [receive_cons v q n later hf]
    refine ⟨hlater, ?_⟩
    rw [answer_answersTo_self, ← delivery, List.map_append]
    rfl
  · obtain ⟨flight, delivery⟩ := h r q' hq
    exact ⟨flight.trans (pendingOf_answer_other hp hne v).symm, delivery.trans (answer_answersTo_other s p rest hne v).symm⟩

theorem allNotesAgree_resetBlock {s : State} (h : AllNotesAgree s) : AllNotesAgree s.resetBlock := by
  intro r q' hq'
  rw [resetBlock_requesters, List.getElem?_map] at hq'
  obtain ⟨q, hq, rfl⟩ := Option.map_eq_some_iff.1 hq'
  refine ⟨by simp, ?_⟩
  rw [afterReset_received]
  exact (h r q hq).2

theorem allNotesAgree_of_step {s t : State} (h : AllNotesAgree s) (hstep : step s = .next t) : AllNotesAgree t := by
  rcases step_cases s t hstep with ⟨rfl, -⟩ | ⟨r, ev, w, -, ho, -, rfl⟩ | ⟨-, p, rest, hp, rfl⟩ | ⟨ev, -, rfl⟩
  · exact allNotesAgree_withAgenda h _
  · exact allNotesAgree_enqueue (allNotesAgree_withAgenda h ev) ho
  · exact allNotesAgree_answer (allNotesAgree_withAgenda h _) hp _
  · exact allNotesAgree_resetBlock (allNotesAgree_withAgenda h ev)

/-- Settles O42: the two matches together are one invariant, since a response is numbered by the oldest request in flight. -/
theorem stepKeepsDeliveryInOrder : Obligations.StepKeepsDeliveryInOrder := by
  intro s t flight delivery hstep
  exact (allNotesAgree_iff t).1 (allNotesAgree_of_step ((allNotesAgree_iff s).2 ⟨flight, delivery⟩) hstep)

end Sys2Proof.Machine
end

section
/-! Every block run is a run of the model (R22, R78, R82): the run's accepts, in order, are a plan that tells each requester what it has to
issue, as raw words and without reissuing, so that neither responses nor resets change what it presents. -/

namespace Sys2Proof.Machine

/-- What requester `r` issues in the plan, in order. -/
def plannedItems (plan : List Pending) (r : Nat) : List Item :=
  (plan.filter fun p => p.requester == r).map fun p => .wire (WireWord.ofWord p.req)

theorem plannedItems_cons_self (p : Pending) (plan : List Pending) :
    plannedItems (p :: plan) p.requester = .wire (WireWord.ofWord p.req) :: plannedItems plan p.requester := by
  simp [plannedItems]

theorem plannedItems_cons_other (p : Pending) (plan : List Pending) {r : Nat} (hne : p.requester ≠ r) :
    plannedItems (p :: plan) r = plannedItems plan r := by
  simp [plannedItems, hne]

/-- The requester has exactly these items to issue and lets dropped requests be. -/
def Requester.has (q : Requester) (items : List Item) : Prop := q.toIssue.map Numbered.item = items ∧ q.reissues = false

theorem Requester.has.receive {q : Requester} {items : List Item} (h : q.has items) (v : Word) : (q.receive v).has items := by
  rwa [Requester.has, receive_toIssue, receive_reissues]

theorem Requester.has.afterReset {q : Requester} {items : List Item} (h : q.has items) : q.afterReset.has items := by
  rw [afterReset_dropping q h.2]
  exact h

theorem Requester.has.sent {q : Requester} {item : Item} {items : List Item} (h : q.has (item :: items)) (w : ReqWord) :
    (q.sent w).has items := by
  obtain ⟨issue, keeps⟩ := h
  obtain ⟨n, rest, hi, -, hrest⟩ := List.map_eq_cons_iff.1 issue
  rw [sent_cons w q n rest hi]
  exact ⟨hrest, keeps⟩

/-- Each requester that the plan names is listed and has to issue what the plan says. -/
def Supplies (s : State) (plan : List Pending) : Prop :=
  ∀ p ∈ plan, ∃ q, s.requesters[p.requester]? = some q ∧ q.has (plannedItems plan p.requester)

theorem Supplies.offer {s : State} {p : Pending} {plan : List Pending} (h : Supplies s (p :: plan)) :
    s.offer p.requester = some (WireWord.ofWord p.req) := by
  obtain ⟨q, hq, issue, -⟩ := h p List.mem_cons_self
  rw [plannedItems_cons_self] at issue
  obtain ⟨n, rest, hi, hitem, -⟩ := List.map_eq_cons_iff.1 issue
  rw [offer_of_toIssue hq hi, hitem]
  rfl

theorem Supplies.withAgenda {s : State} {plan : List Pending} (h : Supplies s plan) (a : List Event) :
    Supplies (s.withAgenda a) plan := h

theorem Supplies.enqueue {s : State} {p : Pending} {plan : List Pending} (h : Supplies s (p :: plan)) :
    Supplies (s.enqueue p.requester p.req) plan := by
  intro p' hp'
  obtain ⟨q, hq, hhas⟩ := h p' (List.mem_cons_of_mem p hp')
  by_cases heq : p.requester = p'.requester
  · rw [← heq, plannedItems_cons_self] at hhas
    exact ⟨q.sent p.req, by simp [heq, hq], heq ▸ hhas.sent p.req⟩
  · rw [plannedItems_cons_other p plan heq] at hhas
    exact ⟨q, by simp [heq, hq], hhas⟩

theorem Supplies.answer {s : State} {plan : List Pending} (h : Supplies s plan) (p : Pending) (rest : List Pending) (v : Word) :
    Supplies (s.answer p rest v) plan := by
  intro p' hp'
  obtain ⟨q, hq, hhas⟩ := h p' hp'
  by_cases heq : p.requester = p'.requester
  · exact ⟨q.receive v, by simp [heq, hq], hhas.receive v⟩
  · exact ⟨q, by simp [heq, hq], hhas⟩

theorem Supplies.resetBlock {s : State} {plan : List Pending} (h : Supplies s plan) : Supplies s.resetBlock plan := by
  intro p hp
  obtain ⟨q, hq, hhas⟩ := h p hp
  exact ⟨q.afterReset, by simp [hq], hhas.afterReset⟩

/-- A state with the block `b` that follows the agenda and supplies the plan runs to the block `c`. -/
def Leads (plan : List Pending) (agenda : List Event) (b c : Block) : Prop :=
  ∀ s : State, s.block = b → s.agenda = agenda → Supplies s plan →
    ∃ t, Sys2Proof.core.run agenda.length s = .next t ∧ t.block = c

theorem leads_refl (b : Block) : Leads [] [] b b := fun s hb _ _ => ⟨s, rfl, hb⟩

/-- A first step into a state that leads on. -/
theorem exists_run_cons {plan : List Pending} {agenda : List Event} {b c : Block} (h : Leads plan agenda b c) {s m : State}
    (hm : step s = .next m) (hb : m.block = b) (ha : m.agenda = agenda) (hs : Supplies m plan) :
    ∃ t, Sys2Proof.core.run (agenda.length + 1) s = .next t ∧ t.block = c := by
  rw [run_step _ s m hm]
  exact h m hb ha hs

theorem leads_accept {plan : List Pending} {agenda : List Event} {b c : Block} {r : Nat} {w : ReqWord}
    (h : Leads plan agenda ⟨b.pending ++ [⟨r, w⟩], b.log⟩ c) : Leads (⟨r, w⟩ :: plan) (.accept r :: agenda) b c := by
  rintro s rfl ha hs
  have hstep : step s = .next ((s.withAgenda agenda).enqueue r w) :=
    (step_of_agenda_accept ha).trans (accept_of_offer_defined (hs.withAgenda agenda).offer (ofWord_defined w))
  exact exists_run_cons h hstep rfl rfl (hs.withAgenda agenda).enqueue

theorem leads_respond {plan : List Pending} {agenda : List Event} {p : Pending} {rest : List Pending} {log : List Entry}
    {c : Block} (h : Leads plan agenda ⟨rest, log ++ [p.answered]⟩ c) : Leads plan (.respond :: agenda) ⟨p :: rest, log⟩ c := by
  intro s hb ha hs
  obtain ⟨hp, rfl⟩ : s.pending = p :: rest ∧ s.log = log := Block.mk.inj hb
  exact exists_run_cons h (step_answers ha hp) rfl rfl ((hs.withAgenda agenda).answer p rest _)

theorem leads_reset {plan : List Pending} {agenda : List Event} {b c : Block} (h : Leads plan agenda ⟨[], b.log⟩ c) :
    Leads plan (.reset :: agenda) b c := by
  rintro s rfl ha hs
  exact exists_run_cons h (step_of_agenda_reset ha) rfl rfl (hs.withAgenda agenda).resetBlock

theorem exists_leads {b c : Block} (h : BlockRun b c) : ∃ plan agenda, Leads plan agenda b c := by
  induction h with
  | refl b => exact ⟨[], [], leads_refl b⟩
  | head a b c first _ ih =>
    obtain ⟨plan, agenda, leads⟩ := ih
    cases first with
    | accept r w => exact ⟨_, _, leads_accept leads⟩
    | respond r w rest log => exact ⟨_, _, leads_respond leads⟩
    | reset => exact ⟨_, _, leads_reset leads⟩

/-- The state with the block `b`, the agenda, and a requester for each number up to the greatest that the plan names. -/
def planned (b : Block) (plan : List Pending) (agenda : List Event) : State where
  pending := b.pending
  log := b.log
  requesters := (List.range ((plan.map Pending.requester).sum + 1)).map fun r => Requester.start (plannedItems plan r) false
  agenda := agenda

theorem numberItems_items (first : Nat) (items : List Item) : (numberItems first items).map Numbered.item = items := by
  induction items generalizing first with
  | nil => rfl
  | cons i rest ih => rw [numberItems, List.map_cons, ih]

theorem start_has (items : List Item) : (Requester.start items false).has items := ⟨numberItems_items 1 items, rfl⟩

theorem planned_supplies (b : Block) (plan : List Pending) (agenda : List Event) : Supplies (planned b plan agenda) plan := by
  intro p hp
  have listed : p.requester < (plan.map Pending.requester).sum + 1 :=
    Nat.lt_succ_of_le (List.le_sum_of_mem (List.mem_map_of_mem hp))
  exact ⟨_, by simp only [planned, List.getElem?_map, List.getElem?_range listed, Option.map_some], start_has _⟩

theorem planned_allDefined (b : Block) (plan : List Pending) (agenda : List Event) : AllDefined (planned b plan agenda) := by
  intro q hq n hn
  obtain ⟨r, -, rfl⟩ := List.mem_map.1 hq
  have item_planned : n.item ∈ plannedItems plan r := (start_has (plannedItems plan r)).1 ▸ List.mem_map_of_mem hn
  obtain ⟨p, -, hitem⟩ := List.mem_map.1 item_planned
  rw [← hitem]
  exact ofWord_defined p.req

/-- Settles O50: the planned state for the block run's own accepts and moves. -/
theorem everyBlockRunIsAdmitted : Obligations.EveryBlockRunIsAdmitted := by
  intro b c h
  obtain ⟨plan, agenda, leads⟩ := exists_leads h
  obtain ⟨t, hrun, hblock⟩ := leads (planned b plan agenda) rfl rfl (planned_supplies b plan agenda)
  exact ⟨_, t, _, rfl, planned_allDefined b plan agenda, hrun, hblock⟩

end Sys2Proof.Machine
end

section
/-! The log and the program order, one step at a time (R34, R45, R49). -/

namespace Sys2Proof.Machine

theorem logSound_answer {s : State} (h : LogSound s) (p : Pending) (rest : List Pending) :
    LogSound (s.answer p rest (result p.req)) := by
  intro e he
  rw [answer_log] at he
  rcases List.mem_append.1 he with before | now
  · exact h e before
  · rw [List.mem_singleton.1 now]

/-- Settles O41: only an answer adds to the log, and it adds the result of the request at the head. -/
theorem stepKeepsLogSound : Obligations.StepKeepsLogSound := by
  intro s t h hstep
  rcases step_cases s t hstep with ⟨rfl, -⟩ | ⟨r, ev, w, -, -, -, rfl⟩ | ⟨-, p, rest, -, rfl⟩ | ⟨ev, -, rfl⟩
  · exact h
  · exact h
  · exact logSound_answer (s := s.withAgenda s.agenda.tail) h p rest
  · exact h

/-- Settles O43: an accept and a response keep the numbers and their order, and so does a reset that reissues; one that drops takes
the numbers in flight out. -/
theorem stepKeepsProgramOrder : Obligations.StepKeepsProgramOrder :=
  fun _ _ => programOrder_of_step

end Sys2Proof.Machine
end

section
/-! The k-th response answers the k-th request (R34, R49): one requester's notes, followed from the accept of a request, under its number
and as its word, to the response to it. -/

namespace Sys2Proof.Machine

/-- Everything a step other than a reset can do to a listed requester and to what the block owes it: neither changes; its next request is
accepted; the oldest of its pending requests is answered. -/
theorem requester_step_cases {s t : State} {r : Nat} {q : Requester} (hn : NoReset s) (hq : s.requesters[r]? = some q)
    (h : step s = .next t) :
    (t.requesters[r]? = some q ∧ t.pendingOf r = s.pendingOf r) ∨
    (∃ ev n rest w, s.agenda = .accept r :: ev ∧ q.toIssue = n :: rest ∧ presentItem q.received n.item = some w ∧
      w.defined = true ∧ t.requesters[r]? = some (q.sent w.bits) ∧ t.pendingOf r = s.pendingOf r ++ [w.bits]) ∨
    (∃ req, s.pendingOf r = req :: t.pendingOf r ∧ t.requesters[r]? = some (q.receive (result req))) := by
  rcases step_cases s t h with ⟨rfl, -⟩ | ⟨i, ev, w, ha, ho, hd, rfl⟩ | ⟨-, p, rest, hp, rfl⟩ | ⟨ev, ha, -⟩
  · exact .inl ⟨hq, rfl⟩
  · by_cases hir : i = r
    · subst hir
      obtain ⟨q₀, n, rest, hq₀, hi, hw⟩ := offer_some s i w ho
      obtain rfl : q₀ = q := Option.some.inj (hq₀.symm.trans hq)
      exact .inr (.inl ⟨ev, n, rest, w, ha, hi, hw, hd, by simp [hq], enqueue_pendingOf_self (s.withAgenda ev) i w.bits⟩)
    · exact .inl ⟨by simp [hir, hq], enqueue_pendingOf_other (s.withAgenda ev) hir w.bits⟩
  · by_cases hpr : p.requester = r
    · subst hpr
      exact .inr (.inr ⟨p.req, pendingOf_answer_self (s := s.withAgenda s.agenda.tail) hp _, by simp [hq]⟩)
    · exact .inl ⟨by simp [hpr, hq], pendingOf_answer_other (s := s.withAgenda s.agenda.tail) hp hpr _⟩
  · exact absurd (ha ▸ List.mem_cons_self) hn

/-- The notes `q` of requester `r` after `n` steps from `s`, when the block owes it answers to the words `owed`: its requests are numbered
from 1 on, each of those in flight was accepted under its number as the word that is owed an answer, and each response is the result of
the word under which the request of its number was accepted. -/
structure Traced (s : State) (n r : Nat) (owed : List ReqWord) (q : Requester) : Prop where
  numbered : q.numbers = List.range' 1 q.numbers.length
  flight : q.inFlight.map Sent.req = owed
  accepted : ∀ m ∈ q.inFlight, AcceptedAs s n r m.number m.req
  answered : ∀ e ∈ q.received, ∃ w, AcceptedAs s n r e.number w ∧ e.rsp = result w

theorem numberItems_numbers (first : Nat) (items : List Item) :
    (numberItems first items).map Numbered.number = List.range' first items.length := by
  induction items generalizing first with
  | nil => rfl
  | cons i rest ih => rw [numberItems, List.map_cons, ih, List.length_cons, List.range'_succ]

theorem numbers_start (items : List Item) (reissues : Bool) :
    (Requester.start items reissues).numbers = List.range' 1 items.length := numberItems_numbers 1 items

theorem traced_start {s : State} {r : Nat} {items : List Item} {reissues : Bool} (hf : FlightMatches s)
    (hq : s.requesters[r]? = some (Requester.start items reissues)) :
    Traced s 0 r (s.pendingOf r) (Requester.start items reissues) where
  numbered := by rw [numbers_start, List.length_range']
  flight := hf r _ hq
  accepted := fun _ hm => absurd hm List.not_mem_nil
  answered := fun _ he => absurd he List.not_mem_nil

theorem Traced.succ {s : State} {n r : Nat} {owed : List ReqWord} {q : Requester} (h : Traced s n r owed q) :
    Traced s (n + 1) r owed q where
  numbered := h.numbered
  flight := h.flight
  accepted := fun m hm => acceptedAs_succ s n r _ _ (h.accepted m hm)
  answered := fun e he => by
    obtain ⟨w, hw, hrsp⟩ := h.answered e he
    exact ⟨w, acceptedAs_succ s n r _ w hw, hrsp⟩

theorem Traced.sent {s : State} {n r : Nat} {owed : List ReqWord} {q : Requester} (h : Traced s n r owed q)
    {k : Numbered} {rest : List Numbered} (hi : q.toIssue = k :: rest) {w : ReqWord} (hw : AcceptedAs s n r k.number w) :
    Traced s n r (owed ++ [w]) (q.sent w) where
  numbered := by
    rw [numbers_sent]
    exact h.numbered
  flight := by
    rw [sent_cons w q k rest hi, List.map_append, h.flight]
    rfl
  accepted := by
    rw [sent_cons w q k rest hi]
    intro m hm
    rcases List.mem_append.1 hm with before | now
    · exact h.accepted m before
    · rwa [List.mem_singleton.1 now]
  answered := by
    rw [sent_received]
    exact h.answered

/-- The response belongs to the oldest request in flight, whose word is the oldest that is owed an answer. -/
theorem Traced.receive {s : State} {n r : Nat} {owed : List ReqWord} {req : ReqWord} {q : Requester}
    (h : Traced s n r (req :: owed) q) : Traced s n r owed (q.receive (result req)) := by
  obtain ⟨oldest, later, hf, rfl, hlater⟩ := List.map_eq_cons_iff.1 h.flight
  have numbered : (q.receive (result oldest.req)).numbers = List.range' 1 (q.receive (result oldest.req)).numbers.length := by
    rw [numbers_receive]
    exact h.numbered
  rw [receive_cons _ q oldest later hf] at numbered ⊢
  refine ⟨numbered, hlater, fun m hm => h.accepted m (hf ▸ List.mem_cons_of_mem oldest hm), fun e he => ?_⟩
  rcases List.mem_append.1 he with before | now
  · exact h.answered e before
  · rw [List.mem_singleton.1 now]
    exact ⟨oldest.req, h.accepted oldest (hf ▸ List.mem_cons_self), rfl⟩

/-- The trace of requester `r` holds of its entry in the state that `n` steps have reached. -/
def TracedIn (s : State) (n r : Nat) (m : State) : Prop :=
  ∃ q, m.requesters[r]? = some q ∧ Traced s n r (m.pendingOf r) q

theorem tracedIn_of_step {s m t : State} {n r : Nat} (hrun : Sys2Proof.core.run n s = .next m) (hn : NoReset m)
    (htraced : TracedIn s n r m) (h : step m = .next t) : TracedIn s (n + 1) r t := by
  obtain ⟨q, hq, hq_traced⟩ := htraced
  rcases requester_step_cases hn hq h with ⟨ht, owed⟩ | ⟨ev, k, rest, w, ha, hi, hw, hd, ht, owed⟩ | ⟨req, owed, ht⟩
  · exact ⟨q, ht, owed ▸ hq_traced.succ⟩
  · have accepted_now : AcceptedAs s (n + 1) r k.number w.bits :=
      ⟨n, m, ev, q, k.item, rest, w, Nat.lt_succ_self n, hrun, ha, hq, hi, hw, (defined_iff w).1 hd, rfl⟩
    exact ⟨_, ht, owed ▸ hq_traced.succ.sent hi accepted_now⟩
  · rw [owed] at hq_traced
    exact ⟨_, ht, hq_traced.succ.receive⟩

theorem tracedIn_of_run {s t : State} {n r : Nat} (hn : NoReset s) (hs : TracedIn s 0 r s)
    (hrun : Sys2Proof.core.run n s = .next t) : TracedIn s n r t := by
  induction n generalizing t with
  | zero => exact run_zero s t hrun ▸ hs
  | succ n ih =>
    obtain ⟨m, hm, hstep⟩ := run_snoc n s t hrun
    have hnm : NoReset m := run_keeps (fun _ _ => noReset_of_step) hn hm
    exact tracedIn_of_step hm hnm (ih hm) hstep

/-- The responses are the first of a requester's numbers. -/
theorem Traced.number_of_received {s : State} {n r : Nat} {owed : List ReqWord} {q : Requester} (h : Traced s n r owed q)
    {i : Nat} {e : Received} (he : q.received[i]? = some e) : e.number = i + 1 := by
  have in_numbers : q.numbers[i]? = some e.number := by
    have hi : i < (q.received.map Received.number).length := by
      rw [List.length_map]
      exact (List.getElem?_eq_some_iff.1 he).1
    rw [Requester.numbers, List.append_assoc, List.getElem?_append_left hi, List.getElem?_map, he, Option.map_some]
  rw [h.numbered] at in_numbers
  obtain ⟨_, at_i⟩ := List.getElem?_eq_some_iff.1 in_numbers
  rw [List.getElem_range'] at at_i
  omega

/-- Settles O47: the trace holds of a requester that has just started, and every step that is no reset keeps it. -/
theorem kthResponseAnswersKthRequest : Obligations.KthResponseAnswersKthRequest := by
  intro n s t r items reissues hn hf hq hrun
  obtain ⟨q, ht, traced⟩ := tracedIn_of_run hn ⟨_, hq, traced_start hf hq⟩ hrun
  refine ⟨q, ht, fun i e he => ?_⟩
  have number_eq : e.number = i + 1 := traced.number_of_received he
  exact ⟨number_eq, number_eq ▸ traced.answered e (List.mem_of_getElem? he)⟩

end Sys2Proof.Machine
end

section
/-! The request word (R38 to R47): it is its two fields, and each way of reading it (its bits, its number, its row of the opcode map) is a
reading of those fields. -/

namespace Sys2Proof

theorem decode_of_op_clear {w : ReqWord} (h : opField w = false) : decode w = .msbIso (operandField w) := by
  simp [decode, h]

theorem decode_of_op_set {w : ReqWord} (h : opField w = true) : decode w = .msbPos (operandField w) := by
  simp [decode, h]

theorem requestFields (i : Instr) : Laws.RequestFields.Statement i := by
  cases i with
  | msbIso x => exact Laws.RequestFields.msbIso x
  | msbPos x => exact Laws.RequestFields.msbPos x

/-- Settles O1: the encoded word's fields are the instruction's operation and operand, and the decoder reads no more than its fields. -/
theorem decodeOfEncode : Obligations.DecodeOfEncode := by
  intro i
  obtain ⟨hop, hoperand⟩ := requestFields i
  cases i with
  | msbIso x => rw [decode_of_op_clear hop, hoperand, Instr.operand]
  | msbPos x => rw [decode_of_op_set hop, hoperand, Instr.operand]

theorem getLsbD_operandField (w : ReqWord) {i : Nat} (hi : i < 64) : (operandField w).getLsbD i = w.getLsbD i := by
  simp [operandField, hi]

theorem eq_operandField {w : ReqWord} {x : Word} (h : ∀ i, i < 64 → x.getLsbD i = w.getLsbD i) : x = operandField w :=
  BitVec.eq_of_getLsbD_eq fun i hi => (h i hi).trans (getLsbD_operandField w hi).symm

/-- No bit of a word lies outside its two fields (R38). -/
theorem reqWord_ext {w w' : ReqWord} (hop : opField w = opField w') (hoperand : operandField w = operandField w') : w = w' := by
  apply BitVec.eq_of_getLsbD_eq
  intro i hi
  rcases Nat.lt_succ_iff_lt_or_eq.1 hi with low | rfl
  · rw [← getLsbD_operandField w low, hoperand, getLsbD_operandField w' low]
  · exact hop

theorem op_decode (w : ReqWord) : ((decode w).op == .position) = opField w := by
  cases h : opField w with
  | false => rw [decode_of_op_clear h]; rfl
  | true => rw [decode_of_op_set h]; rfl

theorem operand_decode (w : ReqWord) : (decode w).operand = operandField w := by
  cases h : opField w with
  | false => rw [decode_of_op_clear h]; rfl
  | true => rw [decode_of_op_set h]; rfl

/-- Settles O2: the word and the encoding of what it decodes to have the same two fields. -/
theorem encodeOfDecode : Obligations.EncodeOfDecode := by
  intro w
  obtain ⟨hop, hoperand⟩ := requestFields (decode w)
  exact reqWord_ext (hop.trans (op_decode w)) (hoperand.trans (operand_decode w))

/-- Settles O3: `x` is the operand field, and bit 64 is the op field. -/
theorem everyWordDecodesByItsOpBit : Obligations.EveryWordDecodesByItsOpBit := by
  intro w x hx
  rw [eq_operandField hx]
  exact ⟨decode_of_op_clear, decode_of_op_set⟩

/-- What a word keeps under the mask of both rows is its op bit. -/
theorem and_opMask (w : ReqWord) :
    w &&& 0x10000000000000000#65 = if opField w then 0x10000000000000000#65 else 0x0#65 := by
  have mask_eq : 0x10000000000000000#65 = BitVec.twoPow 65 64 := by decide
  rw [mask_eq, BitVec.and_twoPow, opField]

/-- Settles O4: under the common mask, the op bit decides which of the two matches is met. -/
theorem everyWordSelectsOneRow : Obligations.EveryWordSelectsOneRow := by
  refine ⟨rfl, fun w => ?_⟩
  have masked := and_opMask w
  cases h : opField w with
  | false =>
    rw [h, if_neg Bool.false_ne_true] at masked
    simp [opcodeMap, masked, decode_of_op_clear h, Instr.op]
  | true =>
    rw [h, if_pos rfl] at masked
    simp [opcodeMap, masked, decode_of_op_set h, Instr.op]

theorem encode_toNat (i : Instr) : (encode i).toNat = i.op.bit.toNat * 2 ^ 64 + i.operand.toNat := by
  rw [encode, BitVec.toNat_append, ← Nat.shiftLeft_add_eq_or_of_lt i.operand.isLt, Nat.shiftLeft_eq]

/-- Settles O5: the word's number is that of its two fields, and each example is the word of its number. -/
theorem requestWordNumber : Obligations.RequestWordNumber := by
  refine ⟨fun x => ⟨encode_toNat (.msbIso x), encode_toNat (.msbPos x)⟩, ?iso, ?pos⟩
  case iso => exact BitVec.eq_of_toNat_eq (encode_toNat (.msbIso 203#64))
  case pos => exact BitVec.eq_of_toNat_eq (encode_toNat (.msbPos 203#64))

end Sys2Proof
end

section
/-! The response word (R44, R45); for POSITION, that its loop counts the shifts that bring the smeared value down to one bit. -/

namespace Sys2Proof.Machine

theorem msbidx_le (x : Word) : msbidx x ≤ 63 := by
  by_cases hx : x.toNat = 0
  · simp [msbidx, hx]
  · exact Nat.le_of_lt_succ ((Nat.log2_lt hx).2 x.isLt)

theorem msbidx_of_not_gt_one {v : Word} (h : ¬ 1#64 < v) : msbidx v = 0 := by
  have small : v.toNat < 2 := by
    rw [BitVec.lt_def] at h
    simpa using h
  rw [msbidx, Nat.log2_def, if_neg (Nat.not_le.2 small)]

theorem msbidx_shift {v : Word} (h : 1#64 < v) : msbidx v = msbidx (v >>> 1) + 1 := by
  have large : 2 ≤ v.toNat := h
  rw [msbidx, Nat.log2_def, if_pos large, msbidx, BitVec.toNat_ushiftRight, Nat.shiftRight_one]

/-- The loop runs once for each place below the highest set bit, as long as its bound allows (R61, R62). -/
theorem posLoop_eq (fuel : Nat) (v : Word) (count : Nat) : posLoop fuel v count = count + min fuel (msbidx v) := by
  induction fuel generalizing v count with
  | zero => simp [posLoop]
  | succ fuel ih =>
    by_cases h : 1#64 < v
    · rw [posLoop_go fuel v count h, ih, msbidx_shift h]
      omega
    · rw [posLoop_stop _ v count h, msbidx_of_not_gt_one h]
      rfl

theorem pos_eq_msbidx_smear (x : Word) : pos x = msbidx (smear x) := by
  have bounded := msbidx_le (smear x)
  rw [pos, posLoop_eq]
  omega

theorem pos_le (x : Word) : pos x ≤ 63 := pos_eq_msbidx_smear x ▸ msbidx_le (smear x)

theorem zext64_toNat {n : Nat} (h : n ≤ 63) : (zext64 n).toNat = n := by
  rw [zext64, BitVec.toNat_ofNat]
  omega

theorem getLsbD_of_toNat_le {v : Word} (h : v.toNat ≤ 63) {i : Nat} (hi : 6 ≤ i) : v.getLsbD i = false := by
  have small : v.toNat < 2 ^ i :=
    calc v.toNat < 2 ^ 6 := by omega
      _ ≤ 2 ^ i := Nat.pow_le_pow_right Nat.two_pos hi
  exact Nat.testBit_lt_two_pow small

theorem result_of_op_clear {w : ReqWord} (h : opField w = false) : result w = iso (operandField w) := by
  simp only [result, decode_of_op_clear h]

theorem result_of_op_set {w : ReqWord} (h : opField w = true) : result w = zext64 (pos (operandField w)) := by
  simp only [result, decode_of_op_set h]

/-- Settles O24: the op bit picks the result, and a count of at most 63 fits into the low six bits. -/
theorem responseFormat : Obligations.ResponseFormat := by
  intro w x hx
  rw [eq_operandField hx]
  refine ⟨result_of_op_clear, fun hop => ?_⟩
  have count : (result w).toNat = pos (operandField w) := by rw [result_of_op_set hop, zext64_toNat (pos_le _)]
  exact ⟨count, fun i hi => getLsbD_of_toNat_le (count ▸ pos_le _) hi⟩

end Sys2Proof.Machine
end

section
/-! What an accept move does, by what the requester presents: a word that is fully defined, one that is not, or nothing (R48, R49, R70, R86). -/

namespace Sys2Proof.Machine

theorem step_accepts {s : State} {r : Nat} {ev : List Event} {q : Requester} {n : Numbered} {rest : List Numbered} {w : ReqWord}
    (ha : s.agenda = .accept r :: ev) (hq : s.requesters[r]? = some q) (hi : q.toIssue = n :: rest)
    (hw : presentItem q.received n.item = some (WireWord.ofWord w)) : step s = .next ((s.withAgenda ev).enqueue r w) := by
  have ho : (s.withAgenda ev).offer r = some (WireWord.ofWord w) := (offer_of_toIssue hq hi).trans hw
  exact (step_of_agenda_accept ha).trans (accept_of_offer_defined ho (ofWord_defined w))

theorem step_holds {s : State} {r : Nat} {ev : List Event} {q : Requester} {n : Numbered} {rest : List Numbered}
    (ha : s.agenda = .accept r :: ev) (hq : s.requesters[r]? = some q) (hi : q.toIssue = n :: rest)
    (hw : presentItem q.received n.item = none) : step s = .next (s.withAgenda ev) :=
  (step_of_agenda_accept ha).trans (accept_of_offer_none ((offer_of_toIssue hq hi).trans hw))

/-- Settles O32: a literal is presented at once, whatever responses have arrived. -/
theorem literalLineIsIssued : Obligations.LiteralLineIsIssued := by
  intro s r ev q number op x rest ha hq hi
  exact ⟨_, step_accepts ha hq hi rfl, rfl⟩

theorem presentItem_ref_none {received : List Received} {op : Op} {k : Nat} (h : responseTo received k = none) :
    presentItem received (.line ⟨op, .ref k⟩) = none := by
  simp only [presentItem, operandValue, h, Option.map_none]

theorem presentItem_ref_some {received : List Received} {op : Op} {k : Nat} {x : Word} (h : responseTo received k = some x) :
    presentItem received (.line ⟨op, .ref k⟩) = some (WireWord.ofWord (encode (op.instr x))) := by
  simp only [presentItem, operandValue, h, Option.map_some]

theorem responseTo_eq_none {received : List Received} {k : Nat} (h : ∀ e ∈ received, e.number ≠ k) :
    responseTo received k = none := by
  rw [responseTo, Option.map_eq_none_iff, List.find?_eq_none]
  exact fun e he heq => h e he (beq_iff_eq.1 heq)

/-- Where no number stands twice, the response found under a number is the one that stands there. -/
theorem responseTo_of_mem {received : List Received} (distinct : (received.map Received.number).Nodup) {e : Received}
    (he : e ∈ received) : responseTo received e.number = some e.rsp := by
  have exists_found : (received.find? fun e' => e'.number == e.number).isSome := by
    rw [List.find?_isSome]
    exact ⟨e, he, beq_self_eq_true _⟩
  obtain ⟨found, hfound⟩ := Option.isSome_iff_exists.1 exists_found
  have number_eq : found.number = e.number := by
    simpa using List.find?_some hfound
  have found_eq : found = e := List.inj_on_of_nodup_map distinct (List.mem_of_find?_eq_some hfound) he number_eq
  rw [responseTo, hfound, found_eq, Option.map_some]

theorem received_nodup {q : Requester} (h : q.ordered) : (q.received.map Received.number).Nodup := by
  obtain ⟨increasing, -⟩ := h
  rw [Requester.numbers, List.append_assoc] at increasing
  exact (List.pairwise_append.1 increasing).1.imp fun hlt => hlt.ne

/-- Settles O33: response k is what the requester finds under k, and without it nothing is presented. -/
theorem referenceWaitsForItsResponse : Obligations.ReferenceWaitsForItsResponse := by
  intro s r ev q number k op rest ha hq ho hi
  constructor
  · intro missing
    exact step_holds ha hq hi (presentItem_ref_none (responseTo_eq_none missing))
  · rintro e he rfl
    exact ⟨_, step_accepts ha hq hi (presentItem_ref_some (responseTo_of_mem (received_nodup ho) he)), rfl⟩

theorem accept_of_offer_undefined {s : State} {r : Nat} {w : WireWord} (ho : s.offer r = some w) (hd : ¬ w.defined = true) :
    accept r s = .refused (.undefinedRequest r) := by
  simp [accept, ho, hd]

/-- Settles O35: the block's moves and a reset always give a next state, and an accept fails to only on an undefined bit. -/
theorem onlyUndefinedRequestsStop : Obligations.OnlyUndefinedRequestsStop := by
  intro s
  match ha : s.agenda with
  | [] => exact .inl (step_of_agenda_nil ha ▸ exists_serve_next s)
  | .respond :: ev => exact .inl (step_of_agenda_respond ha ▸ exists_serve_next _)
  | .reset :: ev => exact .inl ⟨_, step_of_agenda_reset ha⟩
  | .accept r :: ev =>
    rw [step_of_agenda_accept ha]
    cases ho : s.offer r with
    | none => exact .inl ⟨_, accept_of_offer_none ho⟩
    | some w =>
      by_cases hd : w.defined = true
      · exact .inl ⟨_, accept_of_offer_defined ho hd⟩
      · exact .inr ⟨r, ev, w, rfl, ho, mt (defined_iff w).2 hd, accept_of_offer_undefined ho hd⟩

end Sys2Proof.Machine
end

section
/-! What the assembler accepts (R48, R49): each operand it reads is well-formed for the number of its request, and so each line, and so the
program. -/

namespace Sys2Proof.Machine

theorem wellFormed_of_literalOf {n number : Nat} {o : Operand} (h : literalOf n = .ok o) : o.wellFormed number = true := by
  unfold literalOf at h
  split at h
  · cases h; rfl
  · cases h

theorem wellFormed_of_hexOperand {number : Nat} {text : List Char} {o : Operand} (h : hexOperand text = .ok o) :
    o.wellFormed number = true := by
  unfold hexOperand at h
  split at h
  · cases h
  · split at h
    · exact wellFormed_of_literalOf h
    · cases h

theorem wellFormed_of_refOperand {number : Nat} {text : List Char} {o : Operand} (h : refOperand number text = .ok o) :
    o.wellFormed number = true := by
  unfold refOperand at h
  split at h
  · cases h
  · split at h
    case isTrue earlier => cases h; simpa [Operand.wellFormed] using earlier
    case isFalse => cases h

theorem wellFormed_of_parseOperand {number : Nat} {text : List Char} {o : Operand} (h : parseOperand number text = .ok o) :
    o.wellFormed number = true := by
  unfold parseOperand at h
  split at h
  · exact wellFormed_of_refOperand h
  · cases h
  · exact wellFormed_of_hexOperand h
  · split at h
    · cases h
    · exact wellFormed_of_literalOf h

/-- Everything a source line must be for the assembler to read a request from it. -/
theorem assembleLine_some {number : Nat} {src : List Char} {l : Line} (h : assembleLine number src = .ok (some l)) :
    ∃ m text, wordsFrom [] (stripComment src) = [m, text] ∧ parseMnemonic m = some l.op ∧
      parseOperand number text = .ok l.operand := by
  unfold assembleLine at h
  split at h
  · cases h
  · rename_i m operands hwords
    split at h
    · cases h
    · rename_i op hop
      split at h
      · rename_i text
        split at h
        · rename_i operand hoperand
          cases h
          exact ⟨m, text, hwords, hop, hoperand⟩
        · cases h
      · cases h

theorem wellFormed_of_assembleLine {number : Nat} {src : List Char} {l : Line}
    (h : assembleLine number src = .ok (some l)) : l.wellFormed number = true := by
  obtain ⟨m, text, -, -, hoperand⟩ := assembleLine_some h
  exact wellFormed_of_parseOperand hoperand

theorem wellFormed_of_assembleFrom {number : Nat} {src : List (List Char)} {program : List Line}
    (h : assembleFrom number src = .ok program) : programWellFormed number program = true := by
  induction src generalizing number program with
  | nil => cases h; rfl
  | cons line rest ih =>
    unfold assembleFrom at h
    split at h
    · cases h
    · exact ih h
    · rename_i l hline
      split at h
      · cases h
      · rename_i ls hrest
        cases h
        rw [programWellFormed, wellFormed_of_assembleLine hline, ih hrest, Bool.and_self]

/-- Settles O54: the lines are numbered from 1, and each is well-formed under its own number. -/
theorem assembledProgramsAreWellFormed : Obligations.AssembledProgramsAreWellFormed :=
  fun _ _ => wellFormed_of_assembleFrom

end Sys2Proof.Machine
end

section
/-! The text of a line (R48, R49, entry 15): its characters part into the two words it was written from, and the digits of each operand form
read back as the number they were written for. -/

namespace Sys2Proof.Machine

/-! ### Words of a line -/

/-- A character of a word: it neither parts words nor begins a comment. -/
def isWordChar (c : Char) : Bool := !isBlank c && c != ';'

theorem isWordChar_iff (c : Char) : isWordChar c = true ↔ isBlank c = false ∧ c ≠ ';' := by
  simp [isWordChar]

theorem wordsFrom_append {a : List Char} (h : ∀ c ∈ a, isWordChar c = true) (word rest : List Char) :
    wordsFrom word (a ++ rest) = wordsFrom (word ++ a) rest := by
  induction a generalizing word with
  | nil => simp
  | cons c a ih =>
    obtain ⟨hc, ha⟩ := List.forall_mem_cons.1 h
    obtain ⟨not_blank, -⟩ := (isWordChar_iff c).1 hc
    simp [wordsFrom, not_blank, ih ha]

theorem wordsFrom_two {a b : List Char} (ha : ∀ c ∈ a, isWordChar c = true) (hb : ∀ c ∈ b, isWordChar c = true)
    (hane : a ≠ []) (hbne : b ≠ []) : wordsFrom [] (a ++ ' ' :: b) = [a, b] := by
  have last : wordsFrom [] b = [b] := by simpa [wordsFrom, hbne] using wordsFrom_append hb [] []
  have blank : isBlank ' ' = true := by decide
  rw [wordsFrom_append ha, List.nil_append, wordsFrom, if_pos blank, last]
  simp [hane]

theorem stripComment_eq {src : List Char} (h : ∀ c ∈ src, c ≠ ';') : stripComment src = src := by
  rw [stripComment, List.takeWhile_eq_self_iff]
  exact fun c hc => bne_iff_ne.2 (h c hc)

/-! ### Digits -/

theorem isWordChar_digitChar {d : Nat} (h : d < 16) : isWordChar (Nat.digitChar d) = true := by
  revert d
  decide

theorem hexDigit_digitChar {d : Nat} (h : d < 16) : hexDigit (Nat.digitChar d) = some d := by
  revert d
  decide

theorem decimalDigit_digitChar {d : Nat} (h : d < 10) : decimalDigit (Nat.digitChar d) = some d := by
  revert d
  decide

theorem isWordChar_of_mem_digitChars {ds : List Nat} (h : ∀ d ∈ ds, d < 16) :
    ∀ c ∈ ds.map Nat.digitChar, isWordChar c = true := by
  intro c hc
  obtain ⟨d, hd, rfl⟩ := List.mem_map.1 hc
  exact isWordChar_digitChar (h d hd)

theorem digitsValue_snoc (base : Nat) (ds : List Nat) (d : Nat) :
    digitsValue base (ds ++ [d]) = digitsValue base ds * base + d := by
  simp [digitsValue]

theorem hexDigits_digitChars {ds : List Nat} (h : ∀ d ∈ ds, d < 16) {afterDigit : Bool} (hne : afterDigit = true ∨ ds ≠ []) :
    hexDigits afterDigit (ds.map Nat.digitChar) = some ds := by
  induction ds generalizing afterDigit with
  | nil => simpa [hexDigits] using hne
  | cons d ds ih =>
    obtain ⟨hd, hds⟩ := List.forall_mem_cons.1 h
    simp [hexDigits, hexDigit_digitChar hd, ih hds (.inl rfl)]

theorem mapM_decimalDigit_digitChars {ds : List Nat} (h : ∀ d ∈ ds, d < 10) :
    (ds.map Nat.digitChar).mapM decimalDigit = some ds := by
  induction ds with
  | nil => rfl
  | cons d ds ih =>
    obtain ⟨hd, hds⟩ := List.forall_mem_cons.1 h
    simp [decimalDigit_digitChar hd, ih hds]

theorem decimalLiteral_digitChars {ds : List Nat} (h : ∀ d ∈ ds, d < 10) (hne : ds ≠ []) :
    decimalLiteral (ds.map Nat.digitChar) = some (digitsValue 10 ds) := by
  simp [decimalLiteral, mapM_decimalDigit_digitChars h, hne]

/-! ### Literals -/

/-- The lowest `n` digits of `x`, the most significant first. -/
def lowDigits (base n x : Nat) : List Nat := (List.range n).map fun i => x / base ^ (n - 1 - i) % base

theorem lowDigits_lt {base : Nat} (h : 0 < base) (n x : Nat) : ∀ d ∈ lowDigits base n x, d < base := by
  intro d hd
  obtain ⟨i, -, rfl⟩ := List.mem_map.1 hd
  exact Nat.mod_lt _ h

theorem lowDigits_length (base n x : Nat) : (lowDigits base n x).length = n := by
  simp [lowDigits]

theorem lowDigits_succ (base n x : Nat) : lowDigits base (n + 1) x = lowDigits base n (x / base) ++ [x % base] := by
  have shifted : ∀ i ∈ List.range n, x / base ^ (n + 1 - 1 - i) % base = x / base / base ^ (n - 1 - i) % base := by
    intro i hi
    have hi : i < n := List.mem_range.1 hi
    have exponent : n + 1 - 1 - i = n - 1 - i + 1 := by omega
    rw [exponent, Nat.pow_succ', Nat.div_div_eq_div_mul]
  rw [lowDigits, List.range_succ, List.map_append, List.map_congr_left shifted]
  simp [lowDigits]

theorem digitsValue_lowDigits (base n x : Nat) : digitsValue base (lowDigits base n x) = x % base ^ n := by
  induction n generalizing x with
  | zero => simp [lowDigits, digitsValue, Nat.mod_one]
  | succ n ih => rw [lowDigits_succ, digitsValue_snoc, ih, Nat.pow_succ', Nat.mod_mul]; ring

theorem hexText_eq (x : Word) : hexText x = (lowDigits 16 16 x.toNat).map Nat.digitChar := by
  rw [hexText, lowDigits, List.map_map]
  rfl

theorem literalOf_toNat (x : Word) : literalOf x.toNat = .ok (.lit x) := by
  rw [literalOf, if_pos x.isLt, BitVec.ofNat_toNat, BitVec.setWidth_eq]

theorem hexOperand_hexText (x : Word) : hexOperand (hexText x) = .ok (.lit x) := by
  have value : digitsValue 16 (lowDigits 16 16 x.toNat) = x.toNat := by
    rw [digitsValue_lowDigits]
    exact Nat.mod_eq_of_lt x.isLt
  have nonempty : lowDigits 16 16 x.toNat ≠ [] := List.ne_nil_of_length_eq_add_one (lowDigits_length 16 16 x.toNat)
  have digits := hexDigits_digitChars (afterDigit := false) (lowDigits_lt (by decide) 16 x.toNat) (.inr nonempty)
  simp only [hexOperand, hexText_eq, digits, lowDigits_length, le_refl, if_true, value, literalOf_toNat]

/-! ### References -/

/-- The decimal text of `n` is made of digits that write `n`; the fuel suffices when it exceeds `n`. -/
theorem exists_digits_of_decimalText {fuel n : Nat} (h : n < fuel) (tail : List Char) :
    ∃ ds : List Nat, decimalText fuel n tail = ds.map Nat.digitChar ++ tail ∧ ds ≠ [] ∧ (∀ d ∈ ds, d < 10) ∧
      digitsValue 10 ds = n := by
  induction fuel generalizing n tail with
  | zero => exact absurd h (Nat.not_lt_zero n)
  | succ fuel ih =>
    rw [decimalText]
    split
    case isTrue small => exact ⟨[n], rfl, by simp, by simpa using small, by simp [digitsValue]⟩
    case isFalse large =>
      obtain ⟨ds, htext, -, digits, value⟩ := ih (n := n / 10) (by omega) (Nat.digitChar (n % 10) :: tail)
      refine ⟨ds ++ [n % 10], by simp [htext], by simp, ?_, ?_⟩
      · intro d hd
        rcases List.mem_append.1 hd with high | low
        · exact digits d high
        · rw [List.mem_singleton.1 low]
          exact Nat.mod_lt n (by decide)
      · rw [digitsValue_snoc, value]
        omega

theorem exists_digits_of_reference (k : Nat) :
    ∃ ds : List Nat, decimalText (k + 1) k [] = ds.map Nat.digitChar ∧ ds ≠ [] ∧ (∀ d ∈ ds, d < 10) ∧
      digitsValue 10 ds = k := by
  simpa using exists_digits_of_decimalText (Nat.lt_succ_self k) []

theorem refOperand_decimalText {number k : Nat} (h : (Operand.ref k).wellFormed number = true) :
    refOperand number (decimalText (k + 1) k []) = .ok (.ref k) := by
  obtain ⟨ds, htext, nonempty, digits, value⟩ := exists_digits_of_reference k
  have earlier : 1 ≤ k ∧ k < number := by simpa [Operand.wellFormed] using h
  simp only [refOperand, htext, decimalLiteral_digitChars digits nonempty, value, if_pos earlier]

/-! ### The line -/

theorem parseMnemonic_mnemonicText (op : Op) : parseMnemonic (mnemonicText op) = some op := by
  cases op with
  | isolate => rfl
  | position => rfl

theorem parseOperand_operandText {number : Nat} {o : Operand} (h : o.wellFormed number = true) :
    parseOperand number (operandText o) = .ok o := by
  cases o with
  | lit x => exact hexOperand_hexText x
  | ref k => exact refOperand_decimalText h

theorem isWordChar_mnemonicText (op : Op) : ∀ c ∈ mnemonicText op, isWordChar c = true := by
  cases op with
  | isolate => exact List.all_eq_true.1 (by decide)
  | position => exact List.all_eq_true.1 (by decide)

theorem isWordChar_operandText (o : Operand) : ∀ c ∈ operandText o, isWordChar c = true := by
  cases o with
  | lit x =>
    have digits := isWordChar_of_mem_digitChars (lowDigits_lt (by decide) 16 x.toNat)
    rw [operandText, hexText_eq, List.forall_mem_cons, List.forall_mem_cons]
    exact ⟨by decide, by decide, digits⟩
  | ref k =>
    obtain ⟨ds, htext, -, digits, -⟩ := exists_digits_of_reference k
    rw [operandText, htext, List.forall_mem_cons]
    exact ⟨by decide, isWordChar_of_mem_digitChars fun d hd => (digits d hd).trans (by decide)⟩

theorem mnemonicText_ne_nil (op : Op) : mnemonicText op ≠ [] := by
  cases op with
  | isolate => exact List.cons_ne_nil _ _
  | position => exact List.cons_ne_nil _ _

theorem operandText_ne_nil (o : Operand) : operandText o ≠ [] := by
  cases o with
  | lit x => exact List.cons_ne_nil _ _
  | ref k => exact List.cons_ne_nil _ _

theorem stripComment_lineText (l : Line) : stripComment (lineText l) = lineText l := by
  apply stripComment_eq
  intro c hc
  rw [lineText, List.mem_append, List.mem_cons] at hc
  rcases hc with mnemonic | rfl | operand
  · exact ((isWordChar_iff c).1 (isWordChar_mnemonicText l.op c mnemonic)).2
  · decide
  · exact ((isWordChar_iff c).1 (isWordChar_operandText l.operand c operand)).2

theorem words_lineText (l : Line) :
    wordsFrom [] (stripComment (lineText l)) = [mnemonicText l.op, operandText l.operand] := by
  rw [stripComment_lineText, lineText]
  exact wordsFrom_two (isWordChar_mnemonicText l.op) (isWordChar_operandText l.operand) (mnemonicText_ne_nil l.op)
    (operandText_ne_nil l.operand)

/-- Settles O55: the text's two words are read back as the operation and the operand they were written from. -/
theorem everyLineHasSourceText : Obligations.EveryLineHasSourceText := by
  intro number l h
  have operand : parseOperand number (operandText l.operand) = .ok l.operand := parseOperand_operandText h
  simp only [assembleLine, words_lineText, parseMnemonic_mnemonicText, operand]

end Sys2Proof.Machine
end

section
/-! The smeared value (R51 to R53): each way to compute it has at bit `i` the OR of 64 bits of the operand, from bit `i` upwards, and so
the bits from the highest set one down. -/

namespace Sys2Proof.Machine

/-- Bit `i` of `s` is the OR of the `n` bits of `x` from bit `i` upwards. -/
def Smears (n : Nat) (x s : Word) : Prop := ∀ i, s.getLsbD i = true ↔ ∃ k, k < n ∧ x.getLsbD (k + i) = true

theorem smears_self (x : Word) : Smears 1 x x := by
  intro i
  simp

theorem Smears.unique {n : Nat} {x s t : Word} (hs : Smears n x s) (ht : Smears n x t) : s = t :=
  BitVec.eq_of_getLsbD_eq fun i _ => Bool.eq_iff_iff.2 ((hs i).trans (ht i).symm)

/-- An OR-shift step by `n` joins the window of `n` bits with the next one of `n` bits. -/
theorem Smears.step {n : Nat} {x s : Word} (h : Smears n x s) : Smears (n + n) x (smearStep s n) := by
  intro i
  rw [getLsbD_smearStep, Bool.or_eq_true, h i, h (n + i)]
  constructor
  · rintro (⟨k, hk, bit⟩ | ⟨k, hk, bit⟩)
    · exact ⟨k, by omega, bit⟩
    · exact ⟨k + n, by omega, by rwa [Nat.add_assoc]⟩
  · rintro ⟨k, hk, bit⟩
    by_cases lower : k < n
    · exact .inl ⟨k, lower, bit⟩
    · exact .inr ⟨k - n, by omega, by rwa [← Nat.add_assoc, Nat.sub_add_cancel (Nat.le_of_not_lt lower)]⟩

/-- The six steps double the window from 1 bit to 64 (R51). -/
theorem smears_smear (x : Word) : Smears 64 x (smear x) := (smears_self x).step.step.step.step.step.step

/-- Each further shifted copy widens the window by one bit. -/
theorem smears_copies (x : Word) (n : Nat) : Smears n x ((List.range n).foldl (fun acc k => acc ||| (x >>> k)) 0#64) := by
  induction n with
  | zero =>
    intro i
    simp
  | succ n ih =>
    intro i
    rw [List.range_succ, List.foldl_append, List.foldl_cons, List.foldl_nil, BitVec.getLsbD_or, BitVec.getLsbD_ushiftRight,
      Bool.or_eq_true, ih i]
    simp only [Nat.lt_succ_iff_lt_or_eq, or_and_right, exists_or, exists_eq_left]

theorem smearWide_eq_smear (x : Word) : smearWide x = smear x := (smears_copies x 64).unique (smears_smear x)

theorem smearStep_comm (s : Word) (m n : Nat) : smearStep (smearStep s m) n = smearStep (smearStep s n) m := by
  apply BitVec.eq_of_getLsbD_eq
  intro i _
  simp only [getLsbD_smearStep, Nat.add_left_comm n m i]
  ac_rfl

/-- Settles O10: any two OR-shift steps commute, and the single-level OR has the same window of 64 bits as the six steps. -/
theorem smearInAnyOrder : Obligations.SmearInAnyOrder := fun x _ order =>
  ⟨order.foldl_eq' (fun m _ n _ s => smearStep_comm s m n) x, smearWide_eq_smear x⟩

theorem smear_zero : smear 0#64 = 0#64 := by decide

/-- `msbidx x` is the highest set bit (R7, R9). -/
theorem getLsbD_msbidx {x : Word} (hx : 1 ≤ x.toNat) : x.getLsbD (msbidx x) = true :=
  Nat.testBit_log2 (Nat.ne_of_gt hx)

theorem le_msbidx_of_getLsbD {x : Word} {i : Nat} (h : x.getLsbD i = true) : i ≤ msbidx x := by
  have reached : 2 ^ i ≤ x.toNat := Nat.ge_two_pow_of_testBit h
  exact (le_msbidx_iff (Nat.one_le_two_pow.trans reached) i).2 reached

/-- The smeared value has the bits from the highest set one of the operand down (R52). -/
theorem getLsbD_smear {x : Word} (hx : 1 ≤ x.toNat) (i : Nat) : (smear x).getLsbD i = true ↔ i ≤ msbidx x := by
  rw [smears_smear x i]
  constructor
  · rintro ⟨k, -, bit⟩
    exact (Nat.le_add_left i k).trans (le_msbidx_of_getLsbD bit)
  · intro hi
    have bounded := msbidx_le x
    exact ⟨msbidx x - i, by omega, by rw [Nat.sub_add_cancel hi]; exact getLsbD_msbidx hx⟩

theorem smear_toNat {x : Word} (hx : 1 ≤ x.toNat) : (smear x).toNat = 2 ^ (msbidx x + 1) - 1 := by
  apply Nat.eq_of_testBit_eq
  intro i
  rw [Nat.testBit_two_pow_sub_one, Bool.eq_iff_iff, decide_eq_true_iff, Nat.lt_succ_iff]
  exact getLsbD_smear hx i

theorem msbidx_of_top {x : Word} (hx : 2 ^ 63 ≤ x.toNat) : msbidx x = 63 :=
  Nat.le_antisymm (msbidx_le x) ((le_msbidx_iff (Nat.one_le_two_pow.trans hx) 63).2 hx)

theorem smear_toNat_of_top {x : Word} (hx : 2 ^ 63 ≤ x.toNat) : (smear x).toNat = 2 ^ 64 - 1 := by
  rw [smear_toNat (Nat.one_le_two_pow.trans hx), msbidx_of_top hx]

/-- Settles O9: the bits of the smeared value give its number, and the OR of all shifted copies has the same bits. -/
theorem smearClosedForm : Obligations.SmearClosedForm :=
  ⟨smear_zero, fun _ hx => ⟨smear_toNat hx, fun i _ => getLsbD_smear hx i⟩,
    fun _ hx => ⟨msbidx_of_top hx, smear_toNat_of_top hx⟩, fun x => (smearWide_eq_smear x).symm⟩

end Sys2Proof.Machine
end

section
/-! ISOLATE's result on each of the three ranges of R59, and what follows from that table. -/

namespace Sys2Proof.Machine

/-- R59's three ranges are all operands. -/
theorem operand_cases (x : Word) : x.toNat = 0 ∨ (1 ≤ x.toNat ∧ x.toNat ≤ 2 ^ 63 - 1) ∨ 2 ^ 63 ≤ x.toNat := by
  omega

/-- The increment's one bit is shifted out again (R57). -/
theorem iso_of_zero {x : Word} (hx : x.toNat = 0) : iso x = 0#64 := by
  rw [BitVec.eq_of_toNat_eq (y := 0#64) hx, iso_eq, smear_zero]
  rfl

/-- The increment carries out of the 64 bits (R56). -/
theorem smear_add_one_of_top {x : Word} (hx : 2 ^ 63 ≤ x.toNat) : smear x + 1#64 = 0#64 := by
  apply BitVec.eq_of_toNat_eq
  rw [BitVec.toNat_add, smear_toNat_of_top hx]
  rfl

theorem iso_of_top {x : Word} (hx : 2 ^ 63 ≤ x.toNat) : iso x = 0#64 := by
  rw [iso_eq, smear_add_one_of_top hx]
  rfl

theorem msbidx_le_of_low {x : Word} (hx : 1 ≤ x.toNat) (low : x.toNat ≤ 2 ^ 63 - 1) : msbidx x ≤ 62 := by
  have below : ¬ 63 ≤ msbidx x := by
    rw [le_msbidx_iff hx]
    omega
  omega

/-- Below the top bit the increment gives the next power of two, which still fits (R55). -/
theorem iso_toNat_of_low {x : Word} (hx : 1 ≤ x.toNat) (low : x.toNat ≤ 2 ^ 63 - 1) : (iso x).toNat = 2 ^ msbidx x := by
  have fits : 2 ^ (msbidx x + 1) < 2 ^ 64 :=
    Nat.pow_lt_pow_right Nat.one_lt_two (by have := msbidx_le_of_low hx low; omega)
  have increment : (smear x + 1#64).toNat = 2 ^ (msbidx x + 1) := by
    rw [BitVec.toNat_add, smear_toNat hx, BitVec.toNat_ofNat, Nat.one_mod, Nat.sub_add_cancel Nat.one_le_two_pow,
      Nat.mod_eq_of_lt fits]
  rw [iso_eq, BitVec.toNat_ushiftRight, increment, Nat.shiftRight_one, Nat.pow_succ, Nat.mul_div_cancel _ Nat.two_pos]

/-- A power of two has that bit set and no other. -/
theorem getLsbD_of_toNat_eq_two_pow {v : Word} {p : Nat} (h : v.toNat = 2 ^ p) (i : Nat) : v.getLsbD i = true ↔ i = p := by
  rw [BitVec.getLsbD, h, Nat.testBit_two_pow, decide_eq_true_iff, eq_comm]

/-- Settles O11: `msbidx x` is bounded on both sides by the powers that `x` reaches. -/
theorem isoIsHighestPowerOfTwo : Obligations.IsoIsHighestPowerOfTwo := by
  intro x hx low
  have value := iso_toNat_of_low hx low
  have reached : 2 ^ msbidx x ≤ x.toNat := (le_msbidx_iff hx _).1 le_rfl
  have not_reached : x.toNat < 2 ^ (msbidx x + 1) := Nat.lt_of_not_le fun h => Nat.not_succ_le_self _ ((le_msbidx_iff hx _).2 h)
  exact ⟨value, msbidx_le_of_low hx low, getLsbD_of_toNat_eq_two_pow value, value ▸ reached,
    by rwa [value, ← Nat.pow_succ']⟩

theorem getLsbD_top_iff (x : Word) : x.getLsbD 63 = true ↔ 2 ^ 63 ≤ x.toNat := by
  rw [← BitVec.msb_eq_getLsbD_last, BitVec.msb_eq_decide, decide_eq_true_iff]

theorem isoWith_corrected_of_top {x : Word} (hx : 2 ^ 63 ≤ x.toNat) : isoWith true x = 1#64 <<< 63 := by
  rw [isoWith, (getLsbD_top_iff x).2 hx]
  rfl

/-- Settles O12: the all-ones value wraps on the increment; only the corrected variant reads the top bit by itself. -/
theorem isoOfTopBitInputIsZero : Obligations.IsoOfTopBitInputIsZero := by
  refine ⟨rfl, fun x => ⟨getLsbD_top_iff x, fun hx => ⟨smear_toNat_of_top hx, smear_add_one_of_top hx, iso_of_top hx, ?corrected⟩⟩⟩
  case corrected =>
    rw [isoWith_corrected_of_top hx]
    rfl

/-- Settles O13: 0 and every top-bit input have the result 0. -/
theorem isoOfZero : Obligations.IsoOfZero := by
  refine ⟨smear_zero, ?increment, iso_of_zero rfl, fun x hx => (iso_of_top hx).trans (iso_of_zero rfl).symm⟩
  case increment =>
    rw [smear_zero]
    rfl

/-- Settles O15: one lemma for each row of R59's table. -/
theorem isoResultTable : Obligations.IsoResultTable := by
  refine fun x => ⟨fun zero => ?_, iso_toNat_of_low, fun top _ => ?_⟩
  · rw [iso_of_zero zero]
    rfl
  · rw [iso_of_top top]
    rfl

theorem iso_zero_or_two_pow (x : Word) : iso x = 0#64 ∨ ∃ p, p ≤ 62 ∧ (iso x).toNat = 2 ^ p := by
  rcases operand_cases x with zero | ⟨hx, low⟩ | top
  · exact .inl (iso_of_zero zero)
  · exact .inr ⟨msbidx x, msbidx_le_of_low hx low, iso_toNat_of_low hx low⟩
  · exact .inl (iso_of_top top)

/-- Settles O16: neither 0 nor a power 2^p with p ≤ 62 is 2^63, and neither has two bits set. -/
theorem isoRange : Obligations.IsoRange := by
  intro x
  refine ⟨iso_zero_or_two_pow x, ?_⟩
  rcases iso_zero_or_two_pow x with zero | ⟨p, hp, value⟩
  · rw [zero]
    exact ⟨by decide, fun i j hi _ => by simp at hi⟩
  · constructor
    · rw [value]
      exact (Nat.pow_lt_pow_right Nat.one_lt_two (Nat.lt_succ_of_le hp)).ne
    · intro i j hi hj
      rw [getLsbD_of_toNat_eq_two_pow value] at hi hj
      rw [hi, hj]

theorem msbidx_of_toNat_eq_two_pow {v : Word} {p : Nat} (h : v.toNat = 2 ^ p) : msbidx v = p := by
  rw [msbidx, h, Nat.log2_two_pow]

/-- ISOLATE leaves a single bit below the top one as it is. -/
theorem iso_of_toNat_eq_two_pow {v : Word} {p : Nat} (hp : p ≤ 62) (h : v.toNat = 2 ^ p) : iso v = v := by
  have bound : 2 ^ p < 2 ^ 63 := Nat.pow_lt_pow_right Nat.one_lt_two (Nat.lt_succ_of_le hp)
  apply BitVec.eq_of_toNat_eq
  rw [iso_toNat_of_low (h ▸ Nat.one_le_two_pow) (h ▸ Nat.le_sub_one_of_lt bound), msbidx_of_toNat_eq_two_pow h, h]

/-- Settles O14: every result of ISOLATE is 0 or a single bit below the top one, and ISOLATE leaves both as they are. -/
theorem isoIdempotent : Obligations.IsoIdempotent := by
  intro x
  rcases iso_zero_or_two_pow x with zero | ⟨p, hp, value⟩
  · rw [zero, iso_of_zero rfl]
  · exact iso_of_toNat_eq_two_pow hp value

end Sys2Proof.Machine
end

section
/-! What an answer leaves unchanged (R22), and the completion of ISOLATE. -/

namespace Sys2Proof.Machine

/-- An answer hands its value to the requester of the request answered, and to no other. -/
theorem handedTo_answer (s : State) (p : Pending) (rest : List Pending) (v : Word) :
    HandedTo s (s.answer p rest v) p.requester v := by
  refine ⟨?length, ?others, ?nothingInFlight, ?oldestInFlight⟩
  case length => simp
  case others =>
    intro r' hne
    simp [Ne.symm hne]
  case nothingInFlight =>
    intro q hq hi
    simp [hq, receive_nil v q hi]
  case oldestInFlight =>
    intro q n flight hq hi
    simp [hq, receive_cons v q n flight hi]

/-- ISOLATE answers with `iso` of its operand (R54). -/
theorem exec_msbIso (x : Word) (s : State) : exec (.msbIso x) s = respond (iso x) s := rfl

/-- Settles O25: the value is `iso x`, row by row of R59's table; the rest is the frame of an answer. -/
theorem isolateCompletes : Obligations.IsolateCompletes := by
  intro x s p rest hp
  have answered : exec (.msbIso x) s = .next (s.answer p rest (iso x)) := (exec_msbIso x s).trans (respond_cons _ s p rest hp)
  exact ⟨_, iso x, answered, iso_eq x, iso_of_zero, iso_toNat_of_low, iso_of_top, rfl, rfl, rfl, handedTo_answer s p rest (iso x)⟩

end Sys2Proof.Machine
end

section
/-! POSITION's count on each range of R62 and R64, and what follows from it: the loop's bound, the response's bits, and how the count
relates to ISOLATE's result. -/

namespace Sys2Proof.Machine

/-- The smear keeps the highest set bit (R52), so the loop counts to that of the operand (R62). -/
theorem msbidx_smear {x : Word} (hx : 1 ≤ x.toNat) : msbidx (smear x) = msbidx x := by
  have highest : (smear x).getLsbD (msbidx x) = true := (getLsbD_smear hx _).2 le_rfl
  have reached : 2 ^ msbidx x ≤ (smear x).toNat := Nat.ge_two_pow_of_testBit highest
  have above : msbidx (smear x) ≤ msbidx x := (getLsbD_smear hx _).1 (getLsbD_msbidx (Nat.one_le_two_pow.trans reached))
  exact Nat.le_antisymm above (le_msbidx_of_getLsbD highest)

theorem pos_eq_msbidx {x : Word} (hx : 1 ≤ x.toNat) : pos x = msbidx x := by
  rw [pos_eq_msbidx_smear, msbidx_smear hx]

theorem msbidx_zero : msbidx 0#64 = 0 := msbidx_of_not_gt_one (by decide)

theorem pos_of_zero {x : Word} (hx : x.toNat = 0) : pos x = 0 := by
  rw [BitVec.eq_of_toNat_eq (y := 0#64) hx, pos_eq_msbidx_smear, smear_zero, msbidx_zero]

theorem pos_of_top {x : Word} (hx : 2 ^ 63 ≤ x.toNat) : pos x = 63 := by
  rw [pos_eq_msbidx (Nat.one_le_two_pow.trans hx), msbidx_of_top hx]

theorem pos_of_toNat_eq_two_pow {v : Word} {p : Nat} (h : v.toNat = 2 ^ p) : pos v = p := by
  rw [pos_eq_msbidx (h ▸ Nat.one_le_two_pow), msbidx_of_toNat_eq_two_pow h]

/-- The loop's condition after `k` iterations: shifting by `k` leaves at least 2 exactly when the value reaches `2 ^ (k + 1)`. -/
theorem one_lt_shift_iff (v : Word) (k : Nat) : 1 < (v >>> k).toNat ↔ k < msbidx v := by
  by_cases hv : 1 ≤ v.toNat
  · calc 1 < (v >>> k).toNat
      _ ↔ 2 ≤ v.toNat / 2 ^ k := by rw [BitVec.toNat_ushiftRight, Nat.shiftRight_eq_div_pow, Nat.lt_iff_add_one_le]
      _ ↔ 2 ^ (k + 1) ≤ v.toNat := by rw [Nat.le_div_iff_mul_le (Nat.two_pow_pos k), Nat.pow_succ']
      _ ↔ k < msbidx v := (le_msbidx_iff hv (k + 1)).symm
  · have zero : v = 0#64 := BitVec.eq_of_toNat_eq (y := 0#64) (Nat.eq_zero_of_not_pos hv)
    rw [zero, msbidx_zero]
    simp

/-- No operand needs more than 63 iterations (R62, entry 17). -/
theorem posLoop_eq_msbidx {fuel : Nat} (h : 63 ≤ fuel) (v : Word) : posLoop fuel v 0 = msbidx v := by
  rw [posLoop_eq, Nat.zero_add, Nat.min_eq_right ((msbidx_le v).trans h)]

/-- Settles O17: the loop computes `msbidx` of the smeared value, which is that of the operand. -/
theorem posClosedForm : Obligations.PosClosedForm := by
  refine ⟨fun _ => pos_eq_msbidx, pos_of_zero rfl, fun x => ⟨pos_le x, ?iterations, ?bound⟩⟩
  case iterations =>
    intro k _
    rw [pos_eq_msbidx_smear]
    exact one_lt_shift_iff (smear x) k
  case bound =>
    intro fuel enough
    rw [pos_eq_msbidx_smear]
    exact posLoop_eq_msbidx enough (smear x)

/-- A request for POSITION is answered with the count, zero-extended (R45, R61). -/
theorem result_encode_msbPos (x : Word) : result (encode (.msbPos x)) = zext64 (pos x) := by
  rw [result, decodeOfEncode (.msbPos x)]

/-- Settles O18: 1 is the single bit at place 0, so its count is 0 too. -/
theorem posOfZeroEqualsPosOfOne : Obligations.PosOfZeroEqualsPosOfOne := by
  have zero : pos 0#64 = 0 := pos_of_zero rfl
  have one : pos 1#64 = 0 := pos_of_toNat_eq_two_pow rfl
  refine ⟨zero, one, ?response, ?same⟩
  case response =>
    rw [result_encode_msbPos, zero]
    rfl
  case same => rw [result_encode_msbPos, result_encode_msbPos, zero, one]

/-- Settles O19: the smeared value is all ones, and its highest bit is bit 63. -/
theorem posOfTopBitInput : Obligations.PosOfTopBitInput := fun _ hx => ⟨smear_toNat_of_top hx, pos_of_top hx⟩

/-- Settles O20: a number of at most 63 stands in the low six bits and leaves the others 0. -/
theorem posRange : Obligations.PosRange := by
  intro x
  have bounded := pos_le x
  have count : (zext64 (pos x)).toNat = pos x := zext64_toNat bounded
  refine ⟨bounded, ?low, ?high⟩
  case low =>
    rw [BitVec.extractLsb'_toNat, count, Nat.shiftRight_zero, Nat.mod_eq_of_lt (Nat.lt_succ_of_le bounded)]
  case high =>
    apply BitVec.eq_of_getLsbD_eq
    intro i _
    rw [BitVec.getLsbD_extractLsb', getLsbD_of_toNat_le (count.trans_le bounded) (Nat.le_add_right 6 i), Bool.and_false,
      BitVec.getLsbD_zero]

theorem posViaIso_eq_msbidx_iso (x : Word) : posViaIso x = msbidx (iso x) := posLoop_eq_msbidx (by decide) (iso x)

theorem posViaIso_of_iso_zero {x : Word} (h : iso x = 0#64) : posViaIso x = 0 := by
  rw [posViaIso_eq_msbidx_iso, h, msbidx_zero]

/-- Settles O21: ISOLATE keeps the highest set bit below the top one, and loses the top one. -/
theorem posBuiltOnIsoDiffers : Obligations.PosBuiltOnIsoDiffers := by
  refine ⟨⟨pos_of_zero rfl, posViaIso_of_iso_zero (iso_of_zero rfl)⟩, fun x hx low => ⟨pos_eq_msbidx hx, ?kept⟩,
    fun x top => ⟨pos_of_top top, posViaIso_of_iso_zero (iso_of_top top)⟩⟩
  case kept => rw [posViaIso_eq_msbidx_iso, msbidx_of_toNat_eq_two_pow (iso_toNat_of_low hx low)]

/-- Settles O22: both operations are functions of `msbidx`, except for 0 and for the operands whose increment wraps. -/
theorem isoPosRelation : Obligations.IsoPosRelation := by
  refine ⟨fun x hx low => ?single, ⟨iso_of_zero rfl, pos_of_zero rfl⟩, fun x top => ⟨iso_of_top top, pos_of_top top⟩⟩
  case single => rw [iso_toNat_of_low hx low, pos_eq_msbidx hx]

theorem pos_iso_of_low {x : Word} (hx : 1 ≤ x.toNat) (low : x.toNat ≤ 2 ^ 63 - 1) : pos (iso x) = pos x := by
  rw [pos_of_toNat_eq_two_pow (iso_toNat_of_low hx low), pos_eq_msbidx hx]

theorem pos_iso_of_iso_zero {x : Word} (h : iso x = 0#64) : pos (iso x) = 0 := by
  rw [h, pos_of_zero rfl]

/-- Settles O23: the single bit that ISOLATE leaves has the operand's count; a result 0 has count 0. -/
theorem posOfIso : Obligations.PosOfIso := by
  refine ⟨fun x low => ?below, fun x top => ⟨pos_iso_of_iso_zero (iso_of_top top), pos_of_top top⟩, fun p hp => ?single⟩
  case below =>
    rcases Nat.eq_zero_or_pos x.toNat with zero | hx
    · rw [pos_iso_of_iso_zero (iso_of_zero zero), pos_of_zero zero]
    · exact pos_iso_of_low hx low
  case single =>
    have fits : 2 ^ p < 2 ^ 64 := Nat.pow_lt_pow_right Nat.one_lt_two (Nat.lt_succ_of_le hp)
    exact pos_of_toNat_eq_two_pow ((BitVec.toNat_ofNat _ _).trans (Nat.mod_eq_of_lt fits))

end Sys2Proof.Machine
end

section
/-! The completion of POSITION (R22, R61). -/

namespace Sys2Proof.Machine

/-- POSITION answers with the count of its operand (R61). -/
theorem exec_msbPos (x : Word) (s : State) : exec (.msbPos x) s = respond (zext64 (pos x)) s := rfl

/-- Settles O26: the value is `pos x` in 64 bits, range by range of R62 and R64; the rest is the frame of an answer. -/
theorem positionCompletes : Obligations.PositionCompletes := by
  intro x s p rest hp
  have answered : exec (.msbPos x) s = .next (s.answer p rest (zext64 (pos x))) :=
    (exec_msbPos x s).trans (respond_cons _ s p rest hp)
  refine ⟨_, zext64 (pos x), answered, rfl, fun zero => ?zero, fun hx => ?index, fun top => ?top, rfl, rfl, rfl,
    handedTo_answer s p rest _⟩
  case zero =>
    rw [pos_of_zero zero]
    rfl
  case index => rw [zext64_toNat (pos_le x), pos_eq_msbidx hx]
  case top =>
    rw [pos_of_top top]
    rfl

end Sys2Proof.Machine
end

section
/-! Undefined bits (R70, D25) and accepts in either order (R78): an accept depends on its own requester's offer alone. -/

namespace Sys2Proof.Machine

theorem not_defined_of_undriven {w : WireWord} {i : Nat} (hi : i < 65) (undriven : w.driven.getLsbD i = false) :
    ¬ w.defined = true := fun hd =>
  Bool.false_ne_true (undriven.symm.trans ((defined_iff_bits w).1 hd i hi))

theorem decodeWire_of_defined {w : WireWord} (hd : w.defined = true) : decodeWire w = .ok (decode w.bits) := by
  rw [decodeWire, if_pos hd]

theorem decodeWire_of_not_defined {w : WireWord} (hd : ¬ w.defined = true) : decodeWire w = .error .undefinedBits := by
  rw [decodeWire, if_neg hd]

/-- Settles O7: a word is defined when every one of its bits is driven, and one undriven bit makes it undefined. -/
theorem wireDecodingRefusesUndefinedBits : Obligations.WireDecodingRefusesUndefinedBits := by
  intro w
  constructor
  · intro driven
    exact decodeWire_of_defined ((defined_iff_bits w).2 driven)
  · intro i hi undriven
    exact decodeWire_of_not_defined (not_defined_of_undriven hi undriven)

/-- Settles O34: the undriven bit makes the offer undefined, and taking the move off the agenda leaves the offer as it is. -/
theorem undefinedRequestIsRefused : Obligations.UndefinedRequestIsRefused := by
  intro s r ev w i ha ho hi undriven
  have ho' : (s.withAgenda ev).offer r = some w := (withAgenda_offer s ev r).trans ho
  rw [step_of_agenda_accept ha]
  exact accept_of_offer_undefined ho' (not_defined_of_undriven hi undriven)

theorem step_accepts_offer {s : State} {r : Nat} {ev : List Event} {w : WireWord} (ha : s.agenda = .accept r :: ev)
    (ho : s.offer r = some w) (hd : w.defined = true) : step s = .next ((s.withAgenda ev).enqueue r w.bits) :=
  (step_of_agenda_accept ha).trans (accept_of_offer_defined ((withAgenda_offer s ev r).trans ho) hd)

theorem enqueue_offer_other (s : State) {i r : Nat} (hne : i ≠ r) (w : ReqWord) :
    (s.enqueue i w).offer r = s.offer r := by
  simp [State.offer, hne]

/-- The first accept leaves the other requester's offer as it was, so the second appends that same offer (R22, R78). -/
theorem exists_run_two_accepts {s : State} {i j : Nat} {ev : List Event} {wi wj : WireWord}
    (ha : s.agenda = .accept i :: .accept j :: ev) (hne : i ≠ j) (hoi : s.offer i = some wi) (hoj : s.offer j = some wj)
    (hdi : wi.defined = true) (hdj : wj.defined = true) :
    ∃ t, Sys2Proof.core.run 2 s = .next t ∧ t.pending = s.pending ++ [⟨i, wi.bits⟩, ⟨j, wj.bits⟩] := by
  have first : step s = .next ((s.withAgenda (.accept j :: ev)).enqueue i wi.bits) := step_accepts_offer ha hoi hdi
  have still_offered : ((s.withAgenda (.accept j :: ev)).enqueue i wi.bits).offer j = some wj :=
    (enqueue_offer_other _ hne wi.bits).trans hoj
  have second := step_accepts_offer rfl still_offered hdj
  refine ⟨_, (run_step 1 _ _ first).trans (run_step 0 _ _ second), ?_⟩
  simp

/-- Settles O51: the two accepts of the agenda, taken in the one order and in the other. -/
theorem eitherAcceptOrder : Obligations.EitherAcceptOrder := by
  intro s r₁ r₂ w₁ w₂ hne ho₁ ho₂ hw₁ hw₂
  have hd₁ : w₁.defined = true := (defined_iff w₁).2 hw₁
  have hd₂ : w₂.defined = true := (defined_iff w₂).2 hw₂
  constructor
  · exact exists_run_two_accepts (s := s.withAgenda [.accept r₁, .accept r₂]) rfl hne ho₁ ho₂ hd₁ hd₂
  · exact exists_run_two_accepts (s := s.withAgenda [.accept r₂, .accept r₁]) rfl hne.symm ho₂ ho₁ hd₂ hd₁

end Sys2Proof.Machine
end

section
/-! Reset (R82) and what comes right after it (R81, R83): pending is emptied, each requester takes note, and the block goes on as before. -/

namespace Sys2Proof.Machine

theorem resetBlock_withAgenda (s : State) (a : List Event) : (s.withAgenda a).resetBlock = s.resetBlock.withAgenda a := rfl

/-- The reset move is the reset of the block, taken off the agenda. -/
theorem step_resets {s : State} {ev : List Event} (ha : s.agenda = .reset :: ev) :
    step s = .next (s.resetBlock.withAgenda ev) := by
  rw [step_of_agenda_reset ha, resetBlock_withAgenda]

/-- Settles O36: the requesters' part is `Requester.afterReset` of each, which depends on whether it reissues. -/
theorem resetDropsPending : Obligations.ResetDropsPending := by
  intro s ev ha
  refine ⟨_, step_resets ha, rfl, rfl, rfl, ?length, ?each⟩
  case length => simp
  case each =>
    intro r q hq
    refine ⟨q.afterReset, by simp [hq], afterReset_received q, afterReset_reissues q, afterReset_inFlight q, ?dropping, ?again⟩
    case dropping =>
      intro hre
      rw [afterReset_dropping q hre]
      exact ⟨rfl, rfl⟩
    case again =>
      intro hre
      rw [afterReset_again q hre]
      exact ⟨rfl, rfl⟩

/-- A reset and an accept are two steps, which leave the request accepted into the block just reset. -/
theorem run_reset_accept (k : Nat) {s : State} {r : Nat} {ev : List Event} {w : WireWord} (ha : s.agenda = .reset :: .accept r :: ev)
    (ho : s.resetBlock.offer r = some w) (hd : w.defined = true) :
    Sys2Proof.core.run (k + 2) s = Sys2Proof.core.run k ((s.resetBlock.withAgenda ev).enqueue r w.bits) := by
  have still_offered : (s.resetBlock.withAgenda (.accept r :: ev)).offer r = some w := (withAgenda_offer _ _ r).trans ho
  have accepts : step (s.resetBlock.withAgenda (.accept r :: ev)) = .next ((s.resetBlock.withAgenda ev).enqueue r w.bits) :=
    step_accepts_offer (withAgenda_agenda _ _) still_offered hd
  rw [run_step (k + 1) _ _ (step_resets ha), run_step k _ _ accepts]

/-- Settles O37: the accept appends the request to what the reset has emptied. -/
theorem acceptRightAfterReset : Obligations.AcceptRightAfterReset := by
  intro s r ev w ha ho hw
  exact ⟨_, run_reset_accept 0 ha ho ((defined_iff w).2 hw), rfl, rfl⟩

/-- Settles O38: after the reset and the accept the request stands alone in pending, so it is what the respond answers. -/
theorem responseAfterResetIsTheSame : Obligations.ResponseAfterResetIsTheSame := by
  intro s r ev w ha ho hw
  have alone : ((s.resetBlock.withAgenda (.respond :: ev)).enqueue r w.bits).pending = [⟨r, w.bits⟩] := rfl
  have answers := step_answers (ev := ev) rfl alone
  exact ⟨_, (run_reset_accept 1 ha ho ((defined_iff w).2 hw)).trans (run_step 0 _ _ answers), rfl, rfl, rfl⟩

/-- Settles O44: a step stops only at an offer with an undefined bit, and no requester comes to have a request with one. -/
theorem stepKeepsAllDefined : Obligations.StepKeepsAllDefined := by
  intro s hd
  obtain ⟨t, ht⟩ := exists_step_next fun r w => offer_defined (r := r) (w := w) hd
  exact ⟨t, ht, allDefined_of_step hd ht⟩

end Sys2Proof.Machine
end

section
/-! What an instruction does where nothing is pending, and the block's move where it has nothing to answer (R22; entries 2, 3, 6). -/

namespace Sys2Proof.Machine

/-- Every instruction is the answer to its own request word (R45). -/
theorem exec_eq_respond (i : Instr) (s : State) : exec i s = respond (result (encode i)) s := by
  rw [← exec_decode, decodeOfEncode i]

/-- Settles O27: an instruction does nothing but answer, and Respond is not enabled. -/
theorem noAnswerWithNothingPending : Obligations.NoAnswerWithNothingPending := by
  intro i s hp
  rw [exec_eq_respond]
  exact respond_nil _ s hp

/-- Settles O39: `serve` leaves a state with nothing pending as it is, whether the agenda is empty or a respond was taken off it. -/
theorem idleStepChangesNothing : Obligations.IdleStepChangesNothing := by
  intro s hp
  constructor
  · intro ha
    rw [step_of_agenda_nil ha]
    exact serve_nil s hp
  · intro ev ha
    rw [step_of_agenda_respond ha]
    exact serve_nil (s.withAgenda ev) hp

end Sys2Proof.Machine
end

section
/-! The request word that the host places (entries 11, 16): the block moves first, and the agenda is then what it was before. -/

namespace Sys2Proof.Machine

theorem decodeTableWord_some {nbits w : Nat} {i : Instr} (h : decodeTableWord nbits w = some i) :
    decode (BitVec.ofNat 65 w) = i := by
  unfold decodeTableWord at h
  split at h
  · exact Option.some.inj h
  · cases h

/-- Both forms of the agenda on which the block moves: the move is `serve`, and a respond is taken off. -/
theorem step_of_blockMoves {s : State} (hb : blockMoves s) : step s = serve (s.withAgenda s.agenda.tail) := by
  rcases hb with ha | ⟨ev, ha⟩
  · have unchanged : s.withAgenda s.agenda.tail = s := by rw [ha, List.tail_nil, ← ha, withAgenda_self]
    rw [step_of_agenda_nil ha, unchanged]
  · rw [step_of_agenda_respond ha, ha, List.tail_cons]

theorem blockMoves_place (s : State) (w : ReqWord) : blockMoves (s.place w) := by
  rw [blockMoves, place_agenda]
  cases s.agenda with
  | nil => exact .inl rfl
  | cons e rest => exact .inr ⟨e :: rest, rfl⟩

/-- The move that `blockFirst` puts in front of an agenda is all that it adds. -/
theorem tail_blockFirst (agenda : List Event) : (blockFirst agenda).tail = agenda := by
  cases agenda with
  | nil => rfl
  | cons e rest => rfl

theorem place_withAgenda (s : State) (w : ReqWord) :
    (s.place w).withAgenda s.agenda = { s with pending := ⟨s.requesters.length, w⟩ :: s.pending } := rfl

theorem step_place (s : State) (w : ReqWord) :
    step (s.place w) = exec (decode w) { s with pending := ⟨s.requesters.length, w⟩ :: s.pending } := by
  rw [step_of_blockMoves (blockMoves_place s w), place_agenda, tail_blockFirst, place_withAgenda]
  exact serve_eq_exec (p := ⟨s.requesters.length, w⟩) rfl

/-- Settles O30: the placed word is the one that the host's number reads as. -/
theorem fetchWordRunsNext : Obligations.FetchWordRunsNext := by
  intro s nbits w i h
  have placed := step_place s (BitVec.ofNat 65 w)
  rw [decodeTableWord_some h] at placed
  exact placed

end Sys2Proof.Machine
end

section
/-! The request words of 95_test_vectors.md section 2.5: a word decodes to an instruction exactly when it is that instruction's encoding. -/

namespace Sys2Proof

theorem decode_eq_iff {w : ReqWord} {i : Instr} : decode w = i ↔ encode i = w :=
  ⟨fun h => h ▸ encodeOfDecode w, fun h => h ▸ decodeOfEncode i⟩

/-- Settles O6: each word is the encoding of the instruction it is listed with. -/
theorem sampleRequestWordsDecode : Obligations.SampleRequestWordsDecode := by
  unfold Obligations.SampleRequestWordsDecode
  simp only [decode_eq_iff]
  decide

end Sys2Proof
end

section
/-! The source lines of 95_test_vectors.md section 2.6: a line of two words gets the verdict of its operand, or is refused for its mnemonic. -/

namespace Sys2Proof.Machine

/-- A text that is one word of a line (entry 15). -/
def isWord (text : List Char) : Bool := !text.isEmpty && text.all isWordChar

theorem isWord_iff (text : List Char) : isWord text = true ↔ text ≠ [] ∧ ∀ c ∈ text, isWordChar c = true := by
  simp [isWord]

theorem isWord_mnemonicText (op : Op) : isWord (mnemonicText op) = true :=
  (isWord_iff _).2 ⟨mnemonicText_ne_nil op, isWordChar_mnemonicText op⟩

theorem words_two {a b : List Char} (ha : isWord a = true) (hb : isWord b = true) :
    wordsFrom [] (stripComment (a ++ ' ' :: b)) = [a, b] := by
  obtain ⟨a_ne_nil, a_chars⟩ := (isWord_iff a).1 ha
  obtain ⟨b_ne_nil, b_chars⟩ := (isWord_iff b).1 hb
  have no_comment : ∀ c ∈ a ++ ' ' :: b, c ≠ ';' := by
    intro c hc
    rcases List.mem_append.1 hc with in_a | in_tail
    · exact ((isWordChar_iff c).1 (a_chars c in_a)).2
    · rcases List.mem_cons.1 in_tail with rfl | in_b
      · decide
      · exact ((isWordChar_iff c).1 (b_chars c in_b)).2
  rw [stripComment_eq no_comment]
  exact wordsFrom_two a_chars b_chars a_ne_nil b_ne_nil

theorem assembleLine_of_operand_ok {number : Nat} {op : Op} {text : List Char} {o : Operand} (hw : isWord text = true)
    (ho : parseOperand number text = .ok o) :
    assembleLine number (mnemonicText op ++ ' ' :: text) = .ok (some ⟨op, o⟩) := by
  simp only [assembleLine, words_two (isWord_mnemonicText op) hw, parseMnemonic_mnemonicText, ho]

theorem assembleLine_of_operand_error {number : Nat} {op : Op} {text : List Char} {e : AsmError} (hw : isWord text = true)
    (he : parseOperand number text = .error e) :
    assembleLine number (mnemonicText op ++ ' ' :: text) = .error e := by
  simp only [assembleLine, words_two (isWord_mnemonicText op) hw, parseMnemonic_mnemonicText, he]

theorem assembleLine_of_unknown_mnemonic {number : Nat} {m text : List Char} (hm : isWord m = true) (hw : isWord text = true)
    (unknown : parseMnemonic m = none) : assembleLine number (m ++ ' ' :: text) = .error .unknownMnemonic := by
  simp only [assembleLine, words_two hm hw, unknown]

/-- A program's first request has no earlier one to refer to (R49). -/
theorem parseOperand_ref_first {digits : List Char} {k : Nat} (hk : decimalLiteral digits = some k) :
    parseOperand 1 ('$' :: digits) = .error .badReference := by
  have not_earlier : ¬ (1 ≤ k ∧ k < 1) := by omega
  simp only [parseOperand, refOperand, hk, if_neg not_earlier]

/-- Settles O56: each line is cut into its two words; the operand, or the unknown mnemonic, gives the verdict. -/
theorem assemblerVerdicts : Obligations.AssemblerVerdicts := by
  refine ⟨?decimal, ?hex, ?largest, ?tooLarge, ?tooManyDigits, ?negative, ?refZero, ?refItself, ?clz, ?upperCase⟩
  case decimal => exact assembleLine_of_operand_ok (op := .isolate) (text := "203".toList) (by decide) (by decide)
  case hex => exact assembleLine_of_operand_ok (op := .position) (text := "0x1BF9_F56C".toList) (by decide) (by decide)
  case largest =>
    exact assembleLine_of_operand_ok (op := .isolate) (text := "18446744073709551615".toList) (by decide) (by decide)
  case tooLarge =>
    exact assembleLine_of_operand_error (op := .isolate) (text := "18446744073709551616".toList) (by decide) (by decide)
  case tooManyDigits =>
    exact assembleLine_of_operand_error (op := .isolate) (text := "0x1_0000_0000_0000_0000".toList) (by decide) (by decide)
  case negative => exact assembleLine_of_operand_error (op := .position) (text := "-1".toList) (by decide) rfl
  case refZero =>
    exact assembleLine_of_operand_error (op := .isolate) (text := ['$', '0']) (by decide) (parseOperand_ref_first (k := 0) (by decide))
  case refItself =>
    exact assembleLine_of_operand_error (op := .isolate) (text := ['$', '1']) (by decide) (parseOperand_ref_first (k := 1) (by decide))
  case clz =>
    exact assembleLine_of_unknown_mnemonic (m := "msb.clz".toList) (text := "5".toList) (by decide) (by decide) (by decide)
  case upperCase =>
    exact assembleLine_of_unknown_mnemonic (m := "MSB.ISO".toList) (text := "5".toList) (by decide) (by decide) (by decide)

end Sys2Proof.Machine
end
